-- ==== Sys2Proof/Word.lean ====
section
/-! DEFINITION. The two widths of the block: a byte (`u8`) and a 16-bit word (`u16`), rule R9 of spec/00_scope.md. -/

namespace Sys2Proof

/-- A `u8` (R9): an element of BUF, of a frame, of a chunk; a register address. -/
abbrev Byte := BitVec 8

/-- A `u16` (R9): a CRC, the CRC accumulator, a register value. -/
abbrev Word := BitVec 16

end Sys2Proof
end

