-- ==== Sys2Proof/Config.lean ====
section
/-! DEFINITION. What is fixed when the block is instantiated: the range table of R33 (spec/20_memory.md) and the two
open parameters BUF_CAP and RANGE_BASE of R7 (spec/00_scope.md). Nothing here is a free value: the spec names none. -/

namespace Sys2Proof

/-- The 14 ranges of the register-address multiplexer, in the source's listing order (R33). -/
inductive RangeName where
  | linReal | linCorr | segCount | adCal | tempRange | vdacCal | emissivity
  | curCal | peakHold | lowAlarm | highAlarm | respTime | devId | password
deriving DecidableEq, Repr

namespace RangeName

/-- The listing order of R33, which is also the order in which R93 tries the ranges. -/
def all : List RangeName :=
  [linReal, linCorr, segCount, adCal, tempRange, vdacCal, emissivity,
   curCal, peakHold, lowAlarm, highAlarm, respTime, devId, password]

/-- The number of addresses of each range (R33). -/
def length : RangeName → Nat
  | linReal => 30
  | linCorr => 30
  | segCount => 1
  | adCal => 4
  | tempRange => 2
  | vdacCal => 5
  | emissivity => 2
  | curCal => 4
  | peakHold => 4
  | lowAlarm => 3
  | highAlarm => 3
  | respTime => 1
  | devId => 2
  | password => 1

end RangeName

/-- RANGE_BASE (R7, R34): one 8-bit base address for each of the 14 ranges, as plain data. -/
structure RangeBase where
  linReal : Byte
  linCorr : Byte
  segCount : Byte
  adCal : Byte
  tempRange : Byte
  vdacCal : Byte
  emissivity : Byte
  curCal : Byte
  peakHold : Byte
  lowAlarm : Byte
  highAlarm : Byte
  respTime : Byte
  devId : Byte
  password : Byte
deriving DecidableEq, Repr

namespace RangeBase

/-- `RANGE_BASE(r)`. -/
def base (b : RangeBase) : RangeName → Byte
  | .linReal => b.linReal
  | .linCorr => b.linCorr
  | .segCount => b.segCount
  | .adCal => b.adCal
  | .tempRange => b.tempRange
  | .vdacCal => b.vdacCal
  | .emissivity => b.emissivity
  | .curCal => b.curCal
  | .peakHold => b.peakHold
  | .lowAlarm => b.lowAlarm
  | .highAlarm => b.highAlarm
  | .respTime => b.respTime
  | .devId => b.devId
  | .password => b.password

/-- The default RANGE_BASE of R34: the listing order laid out from address 0.
DESIGN CHOICE of the spec (D12), unsafe: log entry 3. -/
def listingOrder : RangeBase where
  linReal := 0
  linCorr := 30
  segCount := 60
  adCal := 61
  tempRange := 65
  vdacCal := 67
  emissivity := 72
  curCal := 74
  peakHold := 78
  lowAlarm := 82
  highAlarm := 85
  respTime := 88
  devId := 89
  password := 91

end RangeBase

/-- The instantiation parameters of R7. `bufCap = none` is BUF_CAP = infinity. -/
structure Config where
  bufCap : Option Nat
  rangeBase : RangeBase
deriving DecidableEq, Repr

/-- The defaults of R7: an unbounded buffer and the listing-order table (log entries 2 and 3). -/
def Config.default : Config where
  bufCap := none
  rangeBase := RangeBase.listingOrder

end Sys2Proof
end

