-- ==== Sys2Proof/Syntax.lean ====
section
/-! DEFINITION. The frame and its parts (R42 to R47), the instructions (one constructor for each row of
spec/opcode_table.json: three wire-frame kinds and the six commands of R52), and what reaches the block from
outside: command and frame packets, and reset (R145). -/

namespace Sys2Proof

/-- The closed set of function codes (R44). -/
inductive FunctionCode where
  | inquire | modify | commitFlash
deriving DecidableEq, Repr

/-- An identifier: four bytes with no byte order of their own (R26, R47). -/
structure Ident where
  b0 : Byte
  b1 : Byte
  b2 : Byte
  b3 : Byte
deriving DecidableEq, Repr

/-- Any ten bytes, named by their frame offsets (R43): `id` is offsets 0 to 3, then one field an offset.
A `Frame` is raw: nothing says that its CRC is right or its function byte known (R85). -/
structure Frame where
  id : Ident
  function : Byte
  address : Byte
  valueHigh : Byte
  valueLow : Byte
  crcHigh : Byte
  crcLow : Byte
deriving DecidableEq, Repr

/-- One constructor for each row of spec/opcode_table.json.

The first three are the wire-frame kinds of R44 and R50 with their four free fields; the block's one treatment of a
frame put before it is that of `DECODE` (R60, R72; log entry 6). `commitFlash` keeps an address and a value, because
`DECODE` recognises the kind by the function byte alone and returns both verbatim (R77; fourth row of R50).

The last six are the commands of R52. `encode` carries `fn` as the function byte, as R52 says a command does; the
byte is one of three in a well-formed command (R53; `Instr.wf`). -/
inductive Instr where
  | inquire (id : Ident) (addr : Byte) (value : Word) (crc : Word)
  | modify (id : Ident) (addr : Byte) (value : Word) (crc : Word)
  | commitFlash (id : Ident) (addr : Byte) (value : Word) (crc : Word)
  | crc16 (init : Word) (data : List Byte)
  | encode (id : Ident) (fn : Byte) (addr : Byte) (value : Word)
  | decode (frame : Frame)
  | feed (chunk : List Byte)
  | drain
  | rmux (addr : Byte)
deriving DecidableEq, Repr

/-- One transaction offered to the block, as raw bytes: a command (selector, then operands: log entry 5), or the
bytes of a wire frame (log entry 6). Its length is part of the transaction (R57). -/
inductive Packet where
  | command (bytes : List Byte)
  | frame (bytes : List Byte)
deriving DecidableEq, Repr

/-- What the outside does to the block, between operations: a transaction, or the reset event (R145). -/
inductive Input where
  | packet (p : Packet)
  | reset
deriving DecidableEq, Repr

/-- Why a transaction is ill formed (R53), by name. -/
inductive IllFormed where
  /-- A command packet with no bytes has no selector. -/
  | emptyCommand
  /-- The selector names no operation: 6 and 7 are reserved (R56), and a selector is 3 bits wide (R52). -/
  | reservedSelector
  /-- The operand bytes are too few or too many for the operands of R52. -/
  | operandLength
  /-- The `fn` operand of `ENCODE` is not 3, 6 or 255 (R53, R54). -/
  | functionByte
  /-- A wire frame that is not exactly 10 bytes (R42). -/
  | frameLength
deriving DecidableEq, Repr

end Sys2Proof
end

