-- ==== Sys2Proof/WellFormed.lean ====
section
/-! DEFINITION. Well-formed commands and transactions (R53), the two further duties of a conforming host (R49, R53),
and legal instantiation parameters (R7, R33). -/

namespace Sys2Proof

/-- `fn` is one of the three function bytes of R44. -/
def knownFunctionByte (fn : Byte) : Bool := fn == 3 || fn == 6 || fn == 255

/-- R53 on a command whose operands already have their types: only `ENCODE` carries a byte that its type does not
restrict enough. -/
def Instr.wf : Instr → Bool
  | .inquire _ _ _ _ => true
  | .modify _ _ _ _ => true
  | .commitFlash _ _ _ _ => true
  | .crc16 _ _ => true
  | .encode _ fn _ _ => knownFunctionByte fn
  | .decode _ => true
  | .feed _ => true
  | .drain => true
  | .rmux _ => true

/-- R53 on the operand bytes behind a selector: `op` is 0..5 and every operand has the type of R52. -/
def commandWf (op : Byte) (operands : List Byte) : Bool :=
  if op = 0 then decide (2 ≤ operands.length)
  else if op = 1 then operands.length == 8 && operands[4]?.any knownFunctionByte
  else if op = 2 then operands.length == 10
  else if op = 3 then true
  else if op = 4 then operands.isEmpty
  else if op = 5 then operands.length == 1
  else false

/-- R53 on a transaction as raw bytes; a wire frame is exactly ten bytes (R42). -/
def Packet.wf : Packet → Bool
  | .command [] => false
  | .command (op :: operands) => commandWf op operands
  | .frame bytes => bytes.length == 10

/-- The duties of the host that the block does not check (R49, R53): a `CommitFlash` command carries zero address
and value, and the address of an `Inquire` or `Modify` command is defined, 0..91. -/
def Instr.hostConforming : Instr → Bool
  | .encode _ fn addr value =>
    if fn = 255 then addr == 0 && value == 0 else decide (addr.toNat ≤ 91)
  | .inquire _ _ _ _ => true
  | .modify _ _ _ _ => true
  | .commitFlash _ addr value _ => addr == 0 && value == 0
  | .crc16 _ _ => true
  | .decode _ => true
  | .feed _ => true
  | .drain => true
  | .rmux _ => true

namespace RangeBase

/-- The first address of range `r`, as a number. -/
def first (b : RangeBase) (r : RangeName) : Nat := (b.base r).toNat

/-- The number just past the last address of range `r`. -/
def past (b : RangeBase) (r : RangeName) : Nat := b.first r + r.length

/-- R7, R33: no range runs past the defined addresses. -/
abbrev Within (b : RangeBase) : Prop := ∀ r ∈ RangeName.all, b.past r ≤ 92

/-- R7, R33: the ranges are pairwise disjoint. -/
abbrev Disjoint (b : RangeBase) : Prop :=
  ∀ r ∈ RangeName.all, ∀ q ∈ RangeName.all, r ≠ q → b.past r ≤ b.first q ∨ b.past q ≤ b.first r

/-- R7, R33: every defined address lies in a range. -/
abbrev Covering (b : RangeBase) : Prop :=
  ∀ a, a < 92 → ∃ r ∈ RangeName.all, b.first r ≤ a ∧ a < b.past r

/-- A RANGE_BASE the block may be instantiated with (R7): pairwise disjoint ranges whose union is exactly 0..91. -/
abbrev Legal (b : RangeBase) : Prop := b.Within ∧ b.Disjoint ∧ b.Covering

end RangeBase

/-- Legal instantiation parameters (R7): BUF_CAP is at least 10 or infinity, and RANGE_BASE is legal. -/
abbrev Config.Legal (c : Config) : Prop := (∀ n ∈ c.bufCap, 10 ≤ n) ∧ c.rangeBase.Legal

end Sys2Proof
end

