-- ==== Sys2Proof/Decode.lean ====
section
/-! DEFINITION. Byte order and frame layout (R26, R43, R45 to R47), the decoder of transactions (total on any bytes,
rejecting by name) and the encoder, both from the tables of R43, R44, R50 and R52; and the host's numbering of the
opcode table's words. -/

namespace Sys2Proof

/-! ### Byte order -/

/-- `w[15:8]`. -/
def highByte (w : Word) : Byte := w.extractLsb' 8 8

/-- `w[7:0]`. -/
def lowByte (w : Word) : Byte := w.extractLsb' 0 8

/-- `high * 256 + low`: the more significant byte stands at the lower offset (R26, R45, R46). -/
def be16 (high low : Byte) : Word := high ++ low

/-! ### Function codes (R44) -/

/-- The function byte of a function code. -/
def FunctionCode.toByte : FunctionCode → Byte
  | .inquire => 3
  | .modify => 6
  | .commitFlash => 255

/-- The function code of a byte; every other byte is outside the closed set. -/
def FunctionCode.ofByte? (b : Byte) : Option FunctionCode :=
  if b = 3 then some .inquire
  else if b = 6 then some .modify
  else if b = 255 then some .commitFlash
  else none

/-! ### Frames as bytes (R43) -/

/-- The four bytes of an identifier, in their fixed order (R47). -/
def Ident.toBytes (i : Ident) : List Byte := [i.b0, i.b1, i.b2, i.b3]

/-- Offsets 0 to 7: the bytes the CRC covers (R46, CRC_COVER of R6). -/
def Frame.body (f : Frame) : List Byte :=
  f.id.toBytes ++ [f.function, f.address, f.valueHigh, f.valueLow]

/-- The ten bytes of a frame, offset 0 first (R43). -/
def Frame.toBytes (f : Frame) : List Byte := f.body ++ [f.crcHigh, f.crcLow]

/-- The frame made of exactly ten bytes (R43). -/
def Frame.ofBytes? : List Byte → Option Frame
  | [b0, b1, b2, b3, fb, ad, vh, vl, ch, cl] => some ⟨⟨b0, b1, b2, b3⟩, fb, ad, vh, vl, ch, cl⟩
  | _ => none

/-- The value field, unsigned (R45). -/
def Frame.value (f : Frame) : Word := be16 f.valueHigh f.valueLow

/-- The received CRC field (R46). -/
def Frame.crc (f : Frame) : Word := be16 f.crcHigh f.crcLow

/-- The frame with these fields, value and CRC split high byte first (R43, R45, R46). -/
def Frame.ofFields (id : Ident) (function address : Byte) (value crc : Word) : Frame where
  id := id
  function := function
  address := address
  valueHigh := highByte value
  valueLow := lowByte value
  crcHigh := highByte crc
  crcLow := lowByte crc

/-- The 80 bits of a frame in the notation of R50: bit 79 is bit 7 of offset 0. -/
def Frame.toBits (f : Frame) : BitVec 80 :=
  f.id.b0 ++ f.id.b1 ++ f.id.b2 ++ f.id.b3 ++ f.function ++ f.address ++ f.valueHigh ++ f.valueLow
    ++ f.crcHigh ++ f.crcLow

/-- A row of R50: a frame matches when its bits under `mask` are `pattern`. -/
structure FramePattern where
  pattern : BitVec 80
  mask : BitVec 80
deriving DecidableEq, Repr

/-- `f` matches the row. -/
def FramePattern.Matches (p : FramePattern) (f : Frame) : Prop := f.toBits &&& p.mask = p.pattern

/-- Row INQUIRE of R50. -/
def FramePattern.inquire : FramePattern := ⟨0x00000000030000000000#80, 0x00000000FF0000000000#80⟩

/-- Row MODIFY of R50. -/
def FramePattern.modify : FramePattern := ⟨0x00000000060000000000#80, 0x00000000FF0000000000#80⟩

/-- Row COMMITFLASH (well-formed) of R50. -/
def FramePattern.commitWellFormed : FramePattern := ⟨0x00000000FF0000000000#80, 0x00000000FFFFFFFF0000#80⟩

/-- Row COMMITFLASH (as `DECODE` recognises it) of R50. -/
def FramePattern.commitRecognised : FramePattern := ⟨0x00000000FF0000000000#80, 0x00000000FF0000000000#80⟩

/-! ### The decoder -/

/-- Operands of `CRC16`: `init`, then the data (log entry 5). -/
def decodeCrc16 : List Byte → Except IllFormed Instr
  | ih :: il :: data => .ok (.crc16 (be16 ih il) data)
  | _ => .error .operandLength

/-- Operands of `ENCODE`: four identifier bytes, the function byte, the address, the value. A function byte outside
the closed set still spells an `ENCODE`, an ill-formed one, which `exec` refuses by name (R53; log entry 7). -/
def decodeEncode : List Byte → Except IllFormed Instr
  | [b0, b1, b2, b3, fn, addr, vh, vl] => .ok (.encode ⟨b0, b1, b2, b3⟩ fn addr (be16 vh vl))
  | _ => .error .operandLength

/-- Operand of `DECODE`: exactly ten bytes. -/
def decodeDecode (operands : List Byte) : Except IllFormed Instr :=
  match Frame.ofBytes? operands with
  | some f => .ok (.decode f)
  | none => .error .operandLength

/-- `DRAIN` has no operands. -/
def decodeDrain : List Byte → Except IllFormed Instr
  | [] => .ok .drain
  | _ => .error .operandLength

/-- Operand of `RMUX`: one address byte. -/
def decodeRmux : List Byte → Except IllFormed Instr
  | [addr] => .ok (.rmux addr)
  | _ => .error .operandLength

/-- A command packet: the selector of R52 in its first byte, then the operands. Selectors 6 and 7, and every byte
with a bit above the three of a selector, are refused (R56). -/
def decodeCommand : List Byte → Except IllFormed Instr
  | [] => .error .emptyCommand
  | op :: operands =>
    if op = 0 then decodeCrc16 operands
    else if op = 1 then decodeEncode operands
    else if op = 2 then decodeDecode operands
    else if op = 3 then .ok (.feed operands)
    else if op = 4 then decodeDrain operands
    else if op = 5 then decodeRmux operands
    else .error .reservedSelector

/-- The kind of a frame is told by its function byte alone (R44, R60). Ten bytes of no known kind are put to the
frame decoder all the same, as the operand of `DECODE` (R60, R72; log entry 6). -/
def Frame.toInstr (f : Frame) : Instr :=
  match FunctionCode.ofByte? f.function with
  | some .inquire => .inquire f.id f.address f.value f.crc
  | some .modify => .modify f.id f.address f.value f.crc
  | some .commitFlash => .commitFlash f.id f.address f.value f.crc
  | none => .decode f

/-- The instruction a transaction spells, or why it spells none (R53). Total on any bytes. -/
def decode : Packet → Except IllFormed Instr
  | .command bytes => decodeCommand bytes
  | .frame bytes =>
    match Frame.ofBytes? bytes with
    | some f => .ok f.toInstr
    | none => .error .frameLength

/-! ### The encoder -/

/-- The transaction that spells an instruction, from the same tables (R43, R44, R52; log entry 5). -/
def encode : Instr → Packet
  | .inquire id addr value crc => .frame (Frame.ofFields id 3 addr value crc).toBytes
  | .modify id addr value crc => .frame (Frame.ofFields id 6 addr value crc).toBytes
  | .commitFlash id addr value crc => .frame (Frame.ofFields id 255 addr value crc).toBytes
  | .crc16 init data => .command ([0, highByte init, lowByte init] ++ data)
  | .encode id fn addr value =>
    .command ([1] ++ id.toBytes ++ [fn, addr, highByte value, lowByte value])
  | .decode f => .command ([2] ++ f.toBytes)
  | .feed chunk => .command ([3] ++ chunk)
  | .drain => .command [4]
  | .rmux addr => .command [5, addr]

/-! ### The opcode table's words -/

/-- Byte `k` of a number, counting from its least significant byte. -/
def byteOfNat (w k : Nat) : Byte := BitVec.ofNat 8 (w >>> (8 * k))

/-- The ten bytes of an 80-bit word of the table, whose bits 79:72 are offset 0 (R50). -/
def frameBytesOfNat (w : Nat) : List Byte := (List.range 10).map fun k => byteOfNat w (9 - k)

/-- The fewest operand bytes a command of this selector has (log entry 5). -/
def minOperands (op : Byte) : Nat :=
  if op = 0 then 2
  else if op = 1 then 8
  else if op = 2 then 10
  else if op = 5 then 1
  else 0

/-- The transaction of a word of the opcode table. A row of 80 bits is a wire frame, bits 79:72 first. Every other
row is a command: bits 7:0 are its first byte, bits 15:8 the next, and the operand bytes the word does not reach are
zero (log entry 8). -/
def tablePacket (nbits w : Nat) : Packet :=
  if nbits = 80 then .frame (frameBytesOfNat w)
  else
    let n := max ((nbits + 7) / 8) (1 + minOperands (byteOfNat w 0))
    .command ((List.range n).map (byteOfNat w))

/-- The instruction the decoder reads from a word of the opcode table. -/
def decodeTableWord (nbits w : Nat) : Option Instr :=
  match decode (tablePacket nbits w) with
  | .ok i => some i
  | .error _ => none

end Sys2Proof
end

