-- ==== Sys2Proof/Machine/State.lean ====
section
/-! DEFINITION. The state of the block, its responses, its faults and refusals, and the state after reset. The spec
gives the block one piece of mutable state, BUF (R13, R24); the other fields are the model's own (log entry 1). -/

namespace Sys2Proof.Machine

/-- The closed set of events a response carries (R125). -/
inductive Event where
  | none
  | checksumMismatch
  | frameMisalignment
  | unknownFunction
  | bufferOverflow
deriving DecidableEq, Repr

/-- The result fields of a response (R52). `nothing` is a response without result fields: `FEED`'s, and that of an
operation that raised an event (R134). -/
inductive Result where
  | nothing
  | crc (c : Word)
  | frame (f : Frame)
  | decoded (fn : FunctionCode) (addr : Byte) (value : Word)
  | frames (fs : List Frame)
  | selected (sel : Option RangeName) (index : Nat)
deriving DecidableEq, Repr

/-- What the block answers to one command (R52, R125). -/
structure Response where
  result : Result
  event : Event
deriving DecidableEq, Repr

/-- The state of a run of the block.

* `buf` is BUF, the block's only mutable state (R13), oldest byte first (R27).
* `cfg` is the model's own: BUF_CAP and RANGE_BASE, fixed at instantiation; no step writes it (R17, R147).
* `port` is the model's own: what the outside still offers the block, oldest first (R30, R161).
* `out` is the model's own: the responses delivered so far, oldest first, which is what a run observes (R161). -/
structure State where
  buf : List Byte
  cfg : Config
  port : List Input
  out : List Response
deriving DecidableEq, Repr

/-- Why the machine stops with a fault. -/
inductive Fault where
  /-- Raised by `FEED` when BUF_CAP is finite and the chunk does not fit entirely (R80, R81). The spec makes it a
  model's fault that is never final (R129, R144): `after` is the state the block goes on from, BUF unchanged and the
  response carrying the event. Safe: the model stops where the block goes on (log entry 9). -/
  | bufferOverflow (after : State)
deriving DecidableEq, Repr

/-- Why the machine refuses a transaction. -/
inductive Refusal where
  /-- An instruction without a meaning, named as spec/opcode_table.json names it. Safe. -/
  | notModelled (mnemonic : String)
  /-- An ill-formed transaction, refused at the interface with no effect and no response (R53, R144). Raised by
  `step` for bytes that spell no instruction, and by `ENCODE` for a function byte outside the closed set. Safe. -/
  | illFormed (why : IllFormed)
deriving DecidableEq, Repr

/-- The block just after reset, instantiated with `cfg`: BUF is empty (R23, R145, R146). -/
def State.resetWith (cfg : Config) : State where
  buf := []
  cfg := cfg
  port := []
  out := []

/-- The block just after reset with the default parameters of R7. -/
def State.reset : State := State.resetWith Config.default

end Sys2Proof.Machine
end

