-- ==== Sys2Proof/Machine/Ops.lean ====
section
/-! DEFINITION. The operations the meanings share: delivering a response, raising an event (R134), the buffer
primitives of R11, the reset event (R145), and going on after a fault (R129, R135). -/

namespace Sys2Proof.Machine

/-- The outcome type of every meaning. -/
abbrev StepOutcome := Host.Outcome State Fault Refusal

/-- Delivers one response: a result and an event (R52, R125). -/
def State.respond (s : State) (r : Result) (e : Event) : State :=
  { s with out := s.out ++ [⟨r, e⟩] }

/-- `return v` of R11: the operation ends with result `r` and event `None`. -/
def State.answer (s : State) (r : Result) : State := s.respond r .none

/-- `raise <Event>` of R11 and R134: nothing is saved, no mode changes, control goes nowhere; the response carries
the event and no result fields. The state change of the raising rule is made in `s` before. -/
def State.raise (s : State) (e : Event) : State := s.respond .nothing e

/-- `BUF <- b` of R11. -/
def State.setBuf (s : State) (b : List Byte) : State := { s with buf := b }

/-- `BUF <- BUF ++ chunk` (R80). -/
def State.appendBuf (s : State) (chunk : List Byte) : State := s.setBuf (s.buf ++ chunk)

/-- `BUF <- []` (R83). -/
def State.clearBuf (s : State) : State := s.setBuf []

/-- Takes what is left at the port. -/
def State.setPort (s : State) (p : List Input) : State := { s with port := p }

/-- The reset event (R145): its whole effect is `BUF <- []`. No response, no event; the parameters stay (R147). -/
def State.applyReset (s : State) : State := s.clearBuf

/-- The return from an event (R135): there is no return instruction and nothing to restore, so after a fault that
is never final (R129) the block goes on from the state the fault carries. -/
def resume : StepOutcome → StepOutcome
  | .next s => .next s
  | .fault (.bufferOverflow s) => .next s
  | .refused r => .refused r

/-- Goes on with `k` from a next state; a fault or a refusal ends the sequence. -/
def andThen (o : StepOutcome) (k : State → StepOutcome) : StepOutcome :=
  match o with
  | .next s => k s
  | .fault f => .fault f
  | .refused r => .refused r

/-- The codes of R125. -/
def Event.code : Event → BitVec 3
  | .none => 0
  | .checksumMismatch => 1
  | .frameMisalignment => 2
  | .unknownFunction => 3
  | .bufferOverflow => 4

end Sys2Proof.Machine
end

