-- ==== Sys2Proof/Machine/Crc.lean ====
section
/-! DEFINITION. The CRC engine: `crc_step`, `crc16` and the operation `CRC16` (spec/40_crc.md). -/

namespace Sys2Proof.Machine

/-- CRC_POLY (R6). -/
def crcPoly : Word := 0x1021

/-- CODEC_CRC_INIT (R6): the codec's initial accumulator. -/
def codecCrcInit : Word := 0xFFFF

/-- One round of R61: the top bit is read before the shift; the polynomial is XORed in after it. -/
def crcRound (a : Word) : Word :=
  if a.msb then (a <<< 1) ^^^ crcPoly else a <<< 1

/-- `n` rounds. -/
def crcRounds : Nat → Word → Word
  | 0, a => a
  | n + 1, a => crcRounds n (crcRound a)

/-- `acc ^ (zext_16(b) << 8)` of R61. -/
def absorb (acc : Word) (b : Byte) : Word := acc ^^^ (b.setWidth 16 <<< 8)

/-- `crc_step` of R61. -/
def crcStep (acc : Word) (b : Byte) : Word := crcRounds 8 (absorb acc b)

/-- `crc16` of R62: `crc_step` folded over the bytes from index 0 upward. -/
def crc16 (s : List Byte) (init : Word) : Word := s.foldl crcStep init

/-- One round without masking, on an accumulator of any width (R64): bit 15 decides, nothing is dropped. -/
def crcRoundWide (a : Nat) : Nat :=
  if a.testBit 15 then (a <<< 1) ^^^ crcPoly.toNat else a <<< 1

/-- `n` rounds without masking (R64). -/
def crcRoundsWide : Nat → Nat → Nat
  | 0, a => a
  | n + 1, a => crcRoundsWide n (crcRoundWide a)

/-- The source's own form of one byte (R64): eight unmasked rounds, then a mask to 16 bits. -/
def crcStepMaskedPerByte (acc : Word) (b : Byte) : Word :=
  BitVec.ofNat 16 (crcRoundsWide 8 (acc.toNat ^^^ (b.toNat <<< 8)))

/-- CRC16 (R63): no state is read or written, no event is possible. -/
def execCrc16 (init : Word) (data : List Byte) (s : State) : StepOutcome :=
  .next (s.answer (.crc (crc16 data init)))

end Sys2Proof.Machine
end

