-- ==== Sys2Proof/Machine/Codec.lean ====
section
/-! DEFINITION. The frame codec: the operations `ENCODE` and `DECODE` (spec/41_codec.md), and the three wire-frame
kinds of R44 and R50, whose meaning is what the block's frame decoder answers to them (R60, R72; log entry 6). -/

namespace Sys2Proof.Machine

/-- The CRC a frame must carry: `crc16` of offsets 0 to 7 from CODEC_CRC_INIT (R46). -/
def frameCrc (f : Frame) : Word := crc16 f.body codecCrcInit

/-- The frame `ENCODE` builds (R70), its CRC computed over the eight bytes before it. -/
def buildFrame (id : Ident) (fb addr : Byte) (value : Word) : Frame :=
  Frame.ofFields id fb addr value (frameCrc (Frame.ofFields id fb addr value 0))

/-- The integrity check of R72: the recomputed CRC equals the received one. -/
def crcOk (f : Frame) : Bool := frameCrc f == f.crc

/-- What the frame decoder answers to ten bytes (R72, R73): the CRC first, then the function byte. -/
def frameVerdict (f : Frame) : Response :=
  if crcOk f then
    match FunctionCode.ofByte? f.function with
    | some fn => ⟨.decoded fn f.address f.value, .none⟩
    | none => ⟨.nothing, .unknownFunction⟩
  else ⟨.nothing, .checksumMismatch⟩

/-- The answer to a frame of a known kind (R60): the fields as they stand if the CRC is right. -/
def answerKnownFrame (fn : FunctionCode) (id : Ident) (addr : Byte) (value crc : Word) (s : State) : State :=
  if crcOk (Frame.ofFields id fn.toByte addr value crc) then s.answer (.decoded fn addr value)
  else s.raise .checksumMismatch

/-- ENCODE (R70, R71): packs its operands verbatim. A function byte outside the closed set is an ill-formed command,
refused by name (R53, R54; log entry 7). -/
def execEncode (id : Ident) (fn addr : Byte) (value : Word) (s : State) : StepOutcome :=
  match FunctionCode.ofByte? fn with
  | some fc => .next (s.answer (.frame (buildFrame id fc.toByte addr value)))
  | none => .refused (.illFormed .functionByte)

/-- DECODE (R72): one of three answers, no state read or written. -/
def execDecode (f : Frame) (s : State) : StepOutcome :=
  .next (s.respond (frameVerdict f).result (frameVerdict f).event)

/-- The wire frame INQUIRE put to the frame decoder (R44, R60). -/
def execInquire (id : Ident) (addr : Byte) (value crc : Word) (s : State) : StepOutcome :=
  .next (answerKnownFrame .inquire id addr value crc s)

/-- The wire frame MODIFY put to the frame decoder (R44, R60). -/
def execModify (id : Ident) (addr : Byte) (value crc : Word) (s : State) : StepOutcome :=
  .next (answerKnownFrame .modify id addr value crc s)

/-- The wire frame COMMITFLASH put to the frame decoder (R44, R60): address and value are returned verbatim, zero or
not (R77). What the instrument then does is outside the block (R39). -/
def execCommitFlash (id : Ident) (addr : Byte) (value crc : Word) (s : State) : StepOutcome :=
  .next (answerKnownFrame .commitFlash id addr value crc s)

end Sys2Proof.Machine
end

