-- ==== Sys2Proof/Machine/Operands.lean ====
section
/-! DEFINITION. Operand readings: the numbering of the range names (R97), and the signed and tenths readings the host
applies to a 16-bit value after `RMUX` (R101, R102). Byte order and frame layout stand in Sys2Proof/Decode.lean. -/

namespace Sys2Proof.Machine

/-- The position of a range in the listing of R33. -/
def rangeNumber : RangeName → Nat
  | .linReal => 0
  | .linCorr => 1
  | .segCount => 2
  | .adCal => 3
  | .tempRange => 4
  | .vdacCal => 5
  | .emissivity => 6
  | .curCal => 7
  | .peakHold => 8
  | .lowAlarm => 9
  | .highAlarm => 10
  | .respTime => 11
  | .devId => 12
  | .password => 13

/-- The select code of R97: the listing position, and 15 for `NONE`; 14 is unused. -/
def selectCode : Option RangeName → BitVec 4
  | some r => BitVec.ofNat 4 (rangeNumber r)
  | none => 15

/-- The signed reading of R101. -/
def asSigned16 (v : Word) : Int :=
  if v.toNat ≤ 32767 then (v.toNat : Int) else (v.toNat : Int) - 65536

/-- The inverse of the signed reading (R101), for -32768 to 32767; `none` outside, where R101 gives no value. -/
def ofSigned16 (n : Int) : Option Word :=
  if 0 ≤ n ∧ n ≤ 32767 then some (BitVec.ofNat 16 n.toNat)
  else if -32768 ≤ n ∧ n ≤ -1 then some (BitVec.ofNat 16 (n + 65536).toNat)
  else none

/-- The tenths reading of R102, exact, of an unsigned field. -/
def tenths (v : Word) : Rat := (v.toNat : Rat) / 10

/-- The tenths reading of R102, exact, of a signed field. -/
def tenthsSigned (v : Word) : Rat := (asSigned16 v : Rat) / 10

end Sys2Proof.Machine
end

