-- ==== Sys2Proof/Machine/Flags.lean ====
section
/-! DEFINITION. The block keeps no flags (R18). What its operations test in their place: the alignment class of BUF
(R28), which `DRAIN` tests, and whether a chunk fits (R80), which `FEED` tests. -/

namespace Sys2Proof.Machine

/-- The three alignment classes of R28. -/
inductive Alignment where
  | aligned | oddMisaligned | evenMisaligned
deriving DecidableEq, Repr

/-- The class of a buffer length (R28), in the order `DRAIN` tests it (R83). -/
def alignmentOf (len : Nat) : Alignment :=
  if len % 10 ≠ 0 then
    if len % 2 = 1 then .oddMisaligned else .evenMisaligned
  else .aligned

/-- LEN (R14). -/
def State.len (s : State) : Nat := s.buf.length

/-- `LEN + n > BUF_CAP` does not hold (R80); it never holds when BUF_CAP is infinity. -/
def State.fits (s : State) (n : Nat) : Bool :=
  match s.cfg.bufCap with
  | none => true
  | some cap => decide (s.len + n ≤ cap)

end Sys2Proof.Machine
end

