-- ==== Sys2Proof/Machine/Reassembler.lean ====
section
/-! DEFINITION. The stream reassembler: the operations `FEED` and `DRAIN` (spec/42_reassembler.md). -/

namespace Sys2Proof.Machine

/-- The loop of R83: the first ten bytes as one frame, then the rest, while at least ten are left. -/
def cutFrames : List Byte → List Frame
  | b0 :: b1 :: b2 :: b3 :: fb :: ad :: vh :: vl :: ch :: cl :: rest =>
    ⟨⟨b0, b1, b2, b3⟩, fb, ad, vh, vl, ch, cl⟩ :: cutFrames rest
  | _ => []

/-- The bytes the loop of R83 leaves. -/
def cutRest : List Byte → List Byte
  | _ :: _ :: _ :: _ :: _ :: _ :: _ :: _ :: _ :: _ :: rest => cutRest rest
  | short => short

/-- FEED (R80): appends the chunk, or, when it does not fit entirely, raises `BufferOverflow` and appends nothing
(R81). The overflow is a fault of the model (R129, R144; log entry 9). -/
def execFeed (chunk : List Byte) (s : State) : StepOutcome :=
  if s.fits chunk.length then .next ((s.appendBuf chunk).answer .nothing)
  else .fault (.bufferOverflow (s.raise .bufferOverflow))

/-- DRAIN (R83): an odd length empties BUF and raises `FrameMisalignment`, whose response carries `frames = []`
(R134); an even length that is no multiple of ten changes nothing (R89); otherwise every frame is cut. -/
def execDrain (s : State) : StepOutcome :=
  match alignmentOf s.len with
  | .oddMisaligned => .next (s.clearBuf.respond (.frames []) .frameMisalignment)
  | .evenMisaligned => .next (s.answer (.frames []))
  | .aligned => .next ((s.setBuf (cutRest s.buf)).answer (.frames (cutFrames s.buf)))

end Sys2Proof.Machine
end

