-- ==== Sys2Proof/Machine/Regmux.lean ====
section
/-! DEFINITION. The register-address multiplexer: the operation `RMUX` and its inverse table reading
(spec/43_regmux.md). -/

namespace Sys2Proof.Machine

/-- `base(r) <= addr and addr <= base(r) + length(r) - 1` of R93, in numbers. -/
def inRange (b : RangeBase) (addr : Byte) (r : RangeName) : Bool :=
  decide ((b.base r).toNat ≤ addr.toNat) && decide (addr.toNat ≤ (b.base r).toNat + r.length - 1)

/-- The loop of R93 over a list of range names: the first range that holds the address, and the offset in it;
`(NONE, 0)` when there is none (R95). -/
def selectRange (b : RangeBase) (addr : Byte) : List RangeName → Option RangeName × Nat
  | [] => (none, 0)
  | r :: rest =>
    if inRange b addr r then (some r, addr.toNat - (b.base r).toNat) else selectRange b addr rest

/-- `RMUX(addr)` of R93 as a function of RANGE_BASE and the address. -/
def rmux (b : RangeBase) (addr : Byte) : Option RangeName × Nat := selectRange b addr RangeName.all

/-- `addr_of(r, k)` of R96, defined for `k < length(r)` only. -/
def addrOf (b : RangeBase) (r : RangeName) (k : Nat) : Option Byte :=
  if k < r.length then some (BitVec.ofNat 8 ((b.base r).toNat + k)) else none

/-- RMUX (R93): no state is read or written, no event is possible. -/
def execRmux (addr : Byte) (s : State) : StepOutcome :=
  .next (s.answer (.selected (rmux s.cfg.rangeBase addr).1 (rmux s.cfg.rangeBase addr).2))

end Sys2Proof.Machine
end

