-- ==== Sys2Proof/Machine/Dispatch.lean ====
section
/-! DEFINITION. One arm for each row of spec/opcode_table.json. -/

namespace Sys2Proof.Machine

def exec (i : Instr) (s : State) : Host.Outcome State Fault Refusal :=
  match i with
  | .inquire id addr value crc => Sys2Proof.Machine.execInquire id addr value crc s
  | .modify id addr value crc => Sys2Proof.Machine.execModify id addr value crc s
  | .commitFlash id addr value crc => Sys2Proof.Machine.execCommitFlash id addr value crc s
  | .crc16 init data => Sys2Proof.Machine.execCrc16 init data s
  | .encode id fn addr value => Sys2Proof.Machine.execEncode id fn addr value s
  | .decode frame => Sys2Proof.Machine.execDecode frame s
  | .feed chunk => Sys2Proof.Machine.execFeed chunk s
  | .drain => Sys2Proof.Machine.execDrain s
  | .rmux addr => Sys2Proof.Machine.execRmux addr s

end Sys2Proof.Machine
end

