-- ==== Sys2Proof/Machine/Step.lean ====
section
/-! DEFINITION. One step of a run: the block takes the oldest thing offered at its port and runs it to completion
(R24, R30, R161). -/

namespace Sys2Proof.Machine

/-- Runs one transaction: its instruction, or the refusal of an ill-formed one (R53). -/
def runPacket (p : Packet) (s : State) : StepOutcome :=
  match decode p with
  | .ok i => exec i s
  | .error e => .refused (.illFormed e)

/-- One step. With nothing offered the block is idle and holds BUF (R143). Reset lands between operations only
(R145). -/
def step (s : State) : Host.Outcome State Fault Refusal :=
  match s.port with
  | [] => .next s
  | .reset :: rest => .next (s.setPort rest).applyReset
  | .packet p :: rest => runPacket p (s.setPort rest)

/-- `s` with the opcode-table word offered next at the port, before anything else offered there (log entry 8). -/
def State.withFetchWord (s : State) (nbits w : Nat) : State :=
  s.setPort (.packet (tablePacket nbits w) :: s.port)

end Sys2Proof.Machine
end

