-- ==== Sys2Proof/Machine/Program.lean ====
section
/-! DEFINITION. Programs (R161) and the pseudo-operations of R59, each a fixed way for the host to issue operations
of the block. -/

namespace Sys2Proof.Machine

/-- A program (R161): instructions run in order, ending at the first fault or refusal. -/
def runProgram : List Instr → State → StepOutcome
  | [], s => .next s
  | i :: rest, s => andThen (exec i s) (runProgram rest)

/-- A program that goes on after a fault that is never final (R129, R135), as the block does. -/
def runResuming : List Instr → State → StepOutcome
  | [], s => .next s
  | i :: rest, s => andThen (resume (exec i s)) (runResuming rest)

/-- `MKINQ` (R59). -/
def mkInq (id : Ident) (addr : Byte) (value : Word) : Instr :=
  .encode id FunctionCode.inquire.toByte addr value

/-- `MKMOD` (R59). -/
def mkMod (id : Ident) (addr : Byte) (value : Word) : Instr :=
  .encode id FunctionCode.modify.toByte addr value

/-- `MKCOMMIT` (R59, R116): address and value are zero. -/
def mkCommit (id : Ident) : Instr := .encode id FunctionCode.commitFlash.toByte 0 0

/-- The frames of a response. -/
def Response.frames (r : Response) : List Frame :=
  match r.result with
  | .frames fs => fs
  | .nothing => []
  | .crc _ => []
  | .frame _ => []
  | .decoded _ _ _ => []
  | .selected _ _ => []

/-- The address of a response to a `DECODE` that succeeded. -/
def Response.address? (r : Response) : Option Byte :=
  match r.result with
  | .decoded _ addr _ => some addr
  | .nothing => none
  | .crc _ => none
  | .frame _ => none
  | .frames _ => none
  | .selected _ _ => none

/-- The bytes of the frame an `ENCODE` answered, as the host hands them to `write` (R117). -/
def Response.writtenBytes (r : Response) : List Byte :=
  match r.result with
  | .frame f => f.toBytes
  | .nothing => []
  | .crc _ => []
  | .decoded _ _ _ => []
  | .frames _ => []
  | .selected _ _ => []

/-- What a run added to the responses of `before`. -/
def newResponses (before after : State) : List Response := after.out.drop before.out.length

/-- `PUSH` (R59): `FEED`, then `DRAIN`, which is still issued if the `FEED` raised `BufferOverflow`. -/
def push (chunk : List Byte) (s : State) : StepOutcome :=
  andThen (resume (exec (.feed chunk) s)) (exec .drain)

/-- `RECEIVE` (R59): `PUSH`; then one `DECODE` for each returned frame, in order; then one `RMUX` for each `DECODE`
whose event is `None` (log entry 10). -/
def receive (bytes : List Byte) (s : State) : StepOutcome :=
  andThen (push bytes s) fun pushed =>
    andThen (runProgram (((newResponses s pushed).flatMap Response.frames).map .decode) pushed) fun decoded =>
      runProgram (((newResponses pushed decoded).filterMap Response.address?).map .rmux) decoded

end Sys2Proof.Machine
end

