-- ==== Sys2Proof/Machine/RegisterMap.lean ====
section
/-! DEFINITION. The host's Register Map on the inbound side (sections 2 and 5 of spec/44_environment.md): how a decoded
address and value become a typed update, and what the map holds after it. It is host software, no state of the block
(R15, R104). What the source withholds about fields (R103; N6, N7, N12, N19 of spec/91_not_in_source.md) is
`HostLayout`, an argument of every definition that needs it (log entry 12). -/

namespace Sys2Proof.Machine

/-! ### What the source withholds: the layout of fields -/

/-- The two transformations of a number the source names (R103), each applied or not. -/
structure Scale where
  tenthsScaled : Bool
  signedField : Bool
deriving DecidableEq, Repr

/-- The reading of a register under a scale (R101, R102, R107), exact. -/
def Scale.read (c : Scale) (v : Word) : Rat :=
  match c.tenthsScaled, c.signedField with
  | false, false => (v.toNat : Rat)
  | false, true => (asSigned16 v : Rat)
  | true, false => tenths v
  | true, true => tenthsSigned v

/-- The kind of a field that is no linearization point (R103): a scalar or fixed-point-tenths number, or a boolean
flag with the register values that mean on. Any other value reads as off (log entry 20). -/
inductive FieldKind where
  | number (scale : Scale)
  | flag (onValues : List Word)
deriving DecidableEq, Repr

/-- Which linearization table a point belongs to (R108). -/
inductive PointKind where
  | real | line
deriving DecidableEq, Repr

/-- The toggleable threshold groups (R12, R108). -/
inductive ToggleName where
  | peakHold | lowAlarm | highAlarm
deriving DecidableEq, Repr

/-- The range of a group's registers (R33). -/
def ToggleName.range : ToggleName → RangeName
  | .peakHold => RangeName.peakHold
  | .lowAlarm => RangeName.lowAlarm
  | .highAlarm => RangeName.highAlarm

/-- One or two of a thing: the thresholds of a group (R110) and the constituent registers of a scalar (R114). -/
structure OneOrTwo (α : Type) where
  first : α
  second : Option α
deriving DecidableEq, Repr

/-- Both, in order. -/
def OneOrTwo.toList {α : Type} (p : OneOrTwo α) : List α := p.first :: p.second.toList

/-- Where a group's flag and its one or two thresholds are inside its range, which flag values read as on, and which
are written for on and off (R110, R113; not in the source, N6). -/
structure ToggleGroup (g : ToggleName) where
  flag : Fin g.range.length
  onValues : List Word
  onValue : Word
  offValue : Word
  thresholds : OneOrTwo (Fin g.range.length)
deriving DecidableEq, Repr

/-- What the two DEV_ID registers hold together (R103, R107). -/
structure DeviceDate where
  year : Nat
  month : Nat
  dayNumber : Nat
deriving DecidableEq, Repr

/-- What one DEV_ID register, split, tells of the date by itself (R107): the parts that lie whole in it, if any. -/
structure DateParts where
  year : Option Nat
  month : Option Nat
  dayNumber : Option Nat
deriving DecidableEq, Repr

/-- The host's linearization table (R12, R109, R124): a count in 1..30 and 30 slots of each kind. -/
structure LinTable where
  count : Nat
  real : Vector Rat 30
  line : Vector Rat 30
  one_le_count : 1 ≤ count
  count_le : count ≤ 30
deriving DecidableEq, Repr

/-- The semantic fields whose write is one or two register writes without a check of their own (R114). The calibration
bounds are taken to be the fields of the three calibration ranges (log entry 12). -/
inductive ScalarField where
  | tempRange | adCal | vdacCal | curCal | respTime
deriving DecidableEq, Repr

/-- The range of a scalar field's registers (R33). -/
def ScalarField.range : ScalarField → RangeName
  | .tempRange => RangeName.tempRange
  | .adCal => RangeName.adCal
  | .vdacCal => RangeName.vdacCal
  | .curCal => RangeName.curCal
  | .respTime => RangeName.respTime

/-- The host's parameters: everything about fields that the source does not give (R103; log entry 12). It is no state
and no step reads it.

* `pointScale`, `kind`: the scale of the points, and the kind of every other field, by range and offset (N7).
* `toggle`: the layout of the three threshold groups (N6).
* `splitDate`, `recombineDate`, `joinDate`: the packing of the two DEV_ID registers (N7): what one of them tells by
  itself, what both tell together, and what is written to them. A part may lie in either or span both.
* `countOutside`: what a received segment count outside 1..30 does to the table (N19, U19).
* `thresholdValue`, `scalarWrites`, `emissivityWrites`: the register values of a write, by offset (N6, N22).
* `queryReads`: the addresses and value fields of a range query's `Inquire` frames (N10). -/
structure HostLayout where
  pointScale : PointKind → Scale
  kind : RangeName → Nat → FieldKind
  toggle : (g : ToggleName) → ToggleGroup g
  splitDate : Nat → Word → DateParts
  recombineDate : Word → Word → Option DeviceDate
  joinDate : DeviceDate → Word × Word
  countOutside : LinTable → Nat → LinTable
  thresholdValue : (g : ToggleName) → Fin g.range.length → Rat → Word
  scalarWrites : (f : ScalarField) → List Rat → OneOrTwo (Fin f.range.length × Word)
  emissivityWrites : Rat → OneOrTwo (Fin RangeName.emissivity.length × Word)
  queryReads : (r : RangeName) → List (Fin r.length × Word)

/-! ### Updates -/

/-- The typed value of a field (R103, R107). A DEV_ID register's is what it tells by itself, with the register as it is,
which its recombination with the other one needs. -/
inductive FieldValue where
  | number (q : Rat)
  | onOff (on : Bool)
  | date (register : Word) (parts : DateParts)
deriving DecidableEq, Repr

/-- The update events of R108. The fields of `calibrationBoundUpdated`, elided by the source, and `field`, which
stands for the variants the source does not list (N12), are the model's: range, index and value (log entry 12). -/
inductive SemanticUpdate where
  | linearPointUpdated (kind : PointKind) (index : Nat) (value : Rat)
  | segmentCountUpdated (count : Nat)
  | calibrationBoundUpdated (range : RangeName) (index : Nat) (value : FieldValue)
  | toggleUpdated (group : ToggleName) (on : Bool)
  | field (range : RangeName) (index : Nat) (value : FieldValue)
deriving DecidableEq, Repr

/-- The visibility implication of a toggle update (R110): the group whose threshold fields it makes relevant or not. -/
def SemanticUpdate.visibility : SemanticUpdate → Option (ToggleName × Bool)
  | .toggleUpdated g on => some (g, on)
  | .linearPointUpdated _ _ _ => none
  | .segmentCountUpdated _ => none
  | .calibrationBoundUpdated _ _ _ => none
  | .field _ _ _ => none

/-- The reading of a field that is neither a point nor part of the device identifier. Which flag values mean on or off
is not in the source (R103, N6): the model reads every value that is no on value as off (DESIGN CHOICE, log entry
20). -/
def FieldKind.read (c : FieldKind) (v : Word) : FieldValue :=
  match c with
  | .number scale => .number (scale.read v)
  | .flag onValues => .onOff (onValues.contains v)

/-- A register of a threshold group: its flag is a toggle update, any other register a field (R108, R110). A flag value
that is no on value is published as off, for which the source gives no values (DESIGN CHOICE, log entry 20). R110 makes
a threshold of an off group stale on read and says nothing of its update: the model publishes and stores it as any
other field, without a stale mark, and it reads as current once the flag is on (DESIGN CHOICE, log entry 17). -/
def interpretToggle (l : HostLayout) (g : ToggleName) (k : Nat) (raw : Word) : SemanticUpdate :=
  if k = (l.toggle g).flag then .toggleUpdated g ((l.toggle g).onValues.contains raw)
  else .field g.range k ((l.kind g.range k).read raw)

/-- The update of a value at an index of a range (R107, R108). PASSWORD gives none (R111, U5; log entry 12). What the
host does with a segment count outside 1..30 is not in the source (R109, N19): the model publishes it as it is, and
only its effect on the table is a parameter (DESIGN CHOICE, log entry 18). -/
def interpretField (l : HostLayout) (r : RangeName) (k : Nat) (raw : Word) : Option SemanticUpdate :=
  match r with
  | .linReal => some (.linearPointUpdated .real k ((l.pointScale .real).read raw))
  | .linCorr => some (.linearPointUpdated .line k ((l.pointScale .line).read raw))
  | .segCount => some (.segmentCountUpdated raw.toNat)
  | .adCal => some (.calibrationBoundUpdated .adCal k ((l.kind .adCal k).read raw))
  | .vdacCal => some (.calibrationBoundUpdated .vdacCal k ((l.kind .vdacCal k).read raw))
  | .curCal => some (.calibrationBoundUpdated .curCal k ((l.kind .curCal k).read raw))
  | .tempRange => some (.field .tempRange k ((l.kind .tempRange k).read raw))
  | .emissivity => some (.field .emissivity k ((l.kind .emissivity k).read raw))
  | .respTime => some (.field .respTime k ((l.kind .respTime k).read raw))
  | .peakHold => some (interpretToggle l .peakHold k raw)
  | .lowAlarm => some (interpretToggle l .lowAlarm k raw)
  | .highAlarm => some (interpretToggle l .highAlarm k raw)
  | .devId => some (.field .devId k (.date raw (l.splitDate k raw)))
  | .password => none

/-- `interpretDecoded(address, rawValue)` (R107): dispatch by range, then the field's scale. No update outside the
ranges (R95, R111). -/
def interpretDecoded (l : HostLayout) (b : RangeBase) (addr : Byte) (raw : Word) : Option SemanticUpdate :=
  match rmux b addr with
  | (none, _) => none
  | (some r, k) => interpretField l r k raw

/-- The update a response of the block gives the host: one only from a `DECODE` that succeeded (R111, R123). The
address and value of a `CommitFlash` frame are ignored (R77, R100). -/
def Response.update? (l : HostLayout) (b : RangeBase) (r : Response) : Option SemanticUpdate :=
  match r.result with
  | .decoded .inquire addr value => interpretDecoded l b addr value
  | .decoded .modify addr value => interpretDecoded l b addr value
  | .decoded .commitFlash _ _ => none
  | .nothing => none
  | .crc _ => none
  | .frame _ => none
  | .frames _ => none
  | .selected _ _ => none

/-! ### What the Register Map holds -/

/-- Stores a point. A point at or past the count is stored, and reads as cleared (log entry 12). -/
def LinTable.setPoint (t : LinTable) (kind : PointKind) (k : Nat) (v : Rat) : LinTable :=
  match kind with
  | .real => { t with real := t.real.setIfInBounds k v }
  | .line => { t with line := t.line.setIfInBounds k v }

/-- The points from index `n` on, cleared to 0 (R109). -/
def clearFrom (n : Nat) (points : Vector Rat 30) : Vector Rat 30 :=
  points.mapIdx fun k v => if k < n then v else 0

/-- A segment count in 1..30: both tables are cleared from that index on (R109). -/
def LinTable.setCount (t : LinTable) (n : Nat) (h : 1 ≤ n ∧ n ≤ 30) : LinTable where
  count := n
  real := clearFrom n t.real
  line := clearFrom n t.line
  one_le_count := h.1
  count_le := h.2

/-- A point as a consumer reads it (R109): at or past the count it is considered cleared, whatever its slot holds. -/
def LinTable.point? (t : LinTable) (kind : PointKind) (k : Nat) : Option Rat :=
  (match kind with
    | .real => t.real[k]?
    | .line => t.line[k]?).map fun v => if k < t.count then v else 0

/-- A field the Register Map has learnt. -/
structure KnownField where
  range : RangeName
  index : Nat
  value : FieldValue
deriving DecidableEq, Repr

/-- The Register Map for the duration of a session (R5, R15): the linearization table, and the last good value of
every other field it has learnt, one entry a field. -/
structure RegisterMap where
  table : LinTable
  fields : List KnownField
deriving DecidableEq, Repr

/-- Whether an entry is the field at this range and index. -/
def KnownField.is (e : KnownField) (r : RangeName) (k : Nat) : Bool := e.range == r && e.index == k

/-- Learns a field: its entry takes the place of an earlier one. -/
def RegisterMap.setField (m : RegisterMap) (r : RangeName) (k : Nat) (v : FieldValue) : RegisterMap :=
  { m with fields := ⟨r, k, v⟩ :: m.fields.filter fun e => !e.is r k }

/-- The last good value of a field, if the map has learnt one. -/
def RegisterMap.field? (m : RegisterMap) (r : RangeName) (k : Nat) : Option FieldValue :=
  (m.fields.find? fun e => e.is r k).map KnownField.value

/-- The Register Map after an update (R109, R111). -/
def RegisterMap.apply (l : HostLayout) (m : RegisterMap) : SemanticUpdate → RegisterMap
  | .linearPointUpdated kind k v => { m with table := m.table.setPoint kind k v }
  | .segmentCountUpdated n =>
    { m with table := if h : 1 ≤ n ∧ n ≤ 30 then m.table.setCount n h else l.countOutside m.table n }
  | .calibrationBoundUpdated r k v => m.setField r k v
  | .toggleUpdated g on => m.setField g.range (l.toggle g).flag (.onOff on)
  | .field r k v => m.setField r k v

/-- Whether a group's thresholds are relevant: only when its flag is known to be on (R110). -/
def RegisterMap.isOn (l : HostLayout) (m : RegisterMap) (g : ToggleName) : Bool :=
  m.field? g.range (l.toggle g).flag == some (.onOff true)

/-- A threshold of a group as a consumer reads it: stale, so nothing, unless the group is on (R110). -/
def RegisterMap.threshold? (l : HostLayout) (m : RegisterMap) (g : ToggleName) (k : Fin g.range.length) :
    Option FieldValue :=
  if m.isOn l g ∧ k ∈ (l.toggle g).thresholds.toList then m.field? g.range k else none

/-- A DEV_ID register the map has learnt. -/
def RegisterMap.dateRegister? (m : RegisterMap) (k : Nat) : Option Word :=
  match m.field? .devId k with
  | some (.date register _) => some register
  | some (.number _) => none
  | some (.onOff _) => none
  | none => none

/-- The device identifier recombined from its two sub-registers (R107), once both are learnt, by the host's packing
(R103, N7; log entry 19). -/
def RegisterMap.deviceDate? (l : HostLayout) (m : RegisterMap) : Option DeviceDate :=
  match m.dateRegister? 0, m.dateRegister? 1 with
  | some r0, some r1 => l.recombineDate r0 r1
  | _, _ => none

end Sys2Proof.Machine
end

