-- ==== Sys2Proof/Machine/Session.lean ====
section
/-! DEFINITION. The host software around the block, as far as spec/44_environment.md fixes it: the write sequences,
the requests of Presentation, and the session that runs both directions of R105. Nothing here is state or an operation
of the block (R104). What the source withholds is an argument (log entry 12). -/

namespace Sys2Proof.Machine

/-! ### Building writes -/

/-- The host's own errors (R122); none is an event of the block (R130). -/
inductive HostError where
  | invalidSegmentCount
  | invalidPercentage
  | transportNotOpen
deriving DecidableEq, Repr

/-- One linearization point to write: the real-voltage value and the corrected value (R112). -/
structure LinPoint where
  real : Word
  corr : Word
deriving DecidableEq, Repr

/-- A register write: an address and a value. -/
abbrev RegWrite := Byte × Word

/-- The address of range `r`, index `k`, as a write uses it; only called for `k < length(r)` (R96). -/
def regAddr (b : RangeBase) (r : RangeName) (k : Nat) : Byte := (addrOf b r k).getD 0

/-- Register values at offsets of one range, as register writes. -/
def rangeWrites (b : RangeBase) (r : RangeName) (ws : List (Fin r.length × Word)) : List RegWrite :=
  ws.map fun w => (regAddr b r w.1, w.2)

/-- The point writes of R112, from point `k` on: real, then corrected, point after point. -/
def pointWrites (b : RangeBase) : Nat → List LinPoint → List RegWrite
  | _, [] => []
  | k, p :: rest =>
    (regAddr b .linReal k, p.real) :: (regAddr b .linCorr k, p.corr) :: pointWrites b (k + 1) rest

/-- The register writes of a linearization table write (R112). That the segment count is the number of points given is
the model's choice (log entry 12). -/
def linearizationWrites (b : RangeBase) (points : List LinPoint) : Except HostError (List RegWrite) :=
  if 1 ≤ points.length ∧ points.length ≤ 30 then
    .ok (pointWrites b 0 points ++ [(regAddr b .segCount 0, BitVec.ofNat 16 points.length)])
  else .error .invalidSegmentCount

/-- The threshold writes of a group, each value at its place, as the register value the host makes of it (`l`; R102 and
N22 give no conversion). A group with two thresholds and a request with one
value, or the other way round, is not in the source: the model writes the pairs there are, drops the rest, and the
sequence still commits (DESIGN CHOICE, log entry 16). -/
def thresholdWrites (l : HostLayout) (g : ToggleName) (thresholds : OneOrTwo Rat) :
    List (Fin g.range.length × Word) :=
  ((l.toggle g).thresholds.toList.zip thresholds.toList).map fun w => (w.1, l.thresholdValue g w.1 w.2)

/-- The register writes of a toggle-group write (R113): the flag first, then the thresholds only if turning on. -/
def toggleWrites (l : HostLayout) (g : ToggleName) (turnOn : Bool) (thresholds : OneOrTwo Rat) :
    List (Fin g.range.length × Word) :=
  ((l.toggle g).flag, if turnOn then (l.toggle g).onValue else (l.toggle g).offValue)
    :: if turnOn then thresholdWrites l g thresholds else []

/-- The two register writes of the device identifier (R107, R114), offset 0 first (log entry 12). -/
def dateWrites (l : HostLayout) (d : DeviceDate) : List (Fin RangeName.devId.length × Word) :=
  [(⟨0, by decide⟩, (l.joinDate d).1), (⟨1, by decide⟩, (l.joinDate d).2)]

/-- The percentage check of an emissivity write (R115). -/
def checkedEmissivity (l : HostLayout) (percent : Rat) :
    Except HostError (List (Fin RangeName.emissivity.length × Word)) :=
  if 0 ≤ percent ∧ percent ≤ 100 then .ok (l.emissivityWrites percent).toList else .error .invalidPercentage

/-- What Presentation asks for (R118): `requestWrite(semanticField, value(s))`, one constructor for each kind of field
of R112 to R115, and `requestQuery(registerRange)`, the range being one of the table's 14 (log entry 12). -/
inductive Request where
  | linearization (points : List LinPoint)
  | toggle (group : ToggleName) (turnOn : Bool) (thresholds : OneOrTwo Rat)
  | scalar (field : ScalarField) (values : List Rat)
  | emissivity (percent : Rat)
  | deviceId (date : DeviceDate)
  | query (range : RangeName)
deriving DecidableEq, Repr

/-- The commands of a write sequence: its `Modify` frames in order, then exactly one commit frame (R116, R120). -/
def writeSequence (id : Ident) (writes : List RegWrite) : List Instr :=
  writes.map (fun w => mkMod id w.1 w.2) ++ [mkCommit id]

/-- `buildWriteSequence`, and the `Inquire` commands of a query (R112 to R116, R118). -/
def buildCommands (l : HostLayout) (b : RangeBase) (id : Ident) : Request → Except HostError (List Instr)
  | .linearization points =>
    match linearizationWrites b points with
    | .ok ws => .ok (writeSequence id ws)
    | .error e => .error e
  | .toggle g turnOn thresholds => .ok (writeSequence id (rangeWrites b g.range (toggleWrites l g turnOn thresholds)))
  | .scalar f values => .ok (writeSequence id (rangeWrites b f.range (l.scalarWrites f values).toList))
  | .emissivity percent =>
    match checkedEmissivity l percent with
    | .ok ws => .ok (writeSequence id (rangeWrites b .emissivity ws))
    | .error e => .error e
  | .deviceId d => .ok (writeSequence id (rangeWrites b .devId (dateWrites l d)))
  | .query r => .ok ((rangeWrites b r (l.queryReads r)).map fun w => mkInq id w.1 w.2)

/-! ### The session -/

/-- The session state machine of R119: Closed, Open, Closed. -/
inductive SessionPhase where
  | closed | opened
deriving DecidableEq, Repr

/-- A session of the host: its phase, its one identifier (R106, R119), and its Register Map, held in memory for the
duration of the session (R5). -/
structure Session where
  phase : SessionPhase
  id : Ident
  map : RegisterMap
deriving DecidableEq, Repr

/-- A session opens with the identifier the host chose for it (R106) and a newly constructed Register Map (R5, R124),
whose first contents the source does not give (log entry 12). -/
def Session.openNew (id : Ident) (map : RegisterMap) : Session := ⟨.opened, id, map⟩

/-- Closing the Transport. -/
def Session.closeDown (x : Session) : Session := { x with phase := .closed }

/-- What a host that follows the spec's advice offers the block when a session opens: a reset (R149). -/
def Session.openingInputs : List Input := [.reset]

/-- The commands a request becomes (R119, R122): while `Closed` every request fails and none is issued. -/
def Session.submit (x : Session) (l : HostLayout) (b : RangeBase) (r : Request) : Except HostError (List Instr) :=
  match x.phase with
  | .closed => .error .transportNotOpen
  | .opened => buildCommands l b x.id r

/-- What a sequence of commands leaves: the block, and the bytes of each `write` to the Transport, in order (R117). -/
structure Sent where
  block : State
  writes : List (List Byte)
deriving DecidableEq, Repr

/-- The outbound end of R105: the commands run in order, and each `ENCODE` result is one `write` (R117, R120). -/
def transmit (cmds : List Instr) (s : State) : Host.Outcome Sent Fault Refusal :=
  match runProgram cmds s with
  | .next t => .next ⟨t, (newResponses s t).map Response.writtenBytes⟩
  | .fault f => .fault f
  | .refused r => .refused r

/-- What a notification leaves: the block, the session, and the updates republished to Presentation, in order. -/
structure Received where
  block : State
  session : Session
  updates : List SemanticUpdate
deriving DecidableEq, Repr

/-- What the block does with a notification's bytes: one `FEED` (R117), and the rest of `RECEIVE` (R59) if the host
drains now. When the host drains is the host's to decide (D21, N16), so it is an argument (log entry 15). -/
def takeBytes (drainNow : Bool) (bytes : List Byte) (s : State) : StepOutcome :=
  if drainNow then receive bytes s else resume (exec (.feed bytes) s)

/-- Routing the block's answers to the Register Map (R111, R119): the updates of the successful decodes are applied
in order and republished; nothing else touches the map. Routing is stated of an `Open` session only; while `Closed`
nothing is routed (DESIGN CHOICE, log entry 15). -/
def Session.route (x : Session) (l : HostLayout) (b : RangeBase) (answers : List Response) :
    Session × List SemanticUpdate :=
  match x.phase with
  | .closed => (x, [])
  | .opened =>
    let updates := answers.filterMap (Response.update? l b)
    ({ x with map := updates.foldl (RegisterMap.apply l) x.map }, updates)

/-- The inbound direction of R105, from `onBytesAvailable(bytes)` (R117) to the republished updates (R119). Whether a
`DRAIN` follows now (D21, N16) is an argument. In a `Closed` session, of which the source does not speak, the bytes
are fed to the block all the same and nothing is routed. Both are log entry 15. -/
def Session.onBytesAvailable (x : Session) (l : HostLayout) (drainNow : Bool) (bytes : List Byte) (s : State) :
    Host.Outcome Received Fault Refusal :=
  match takeBytes drainNow bytes s with
  | .next t =>
    .next ⟨t, (x.route l s.cfg.rangeBase (newResponses s t)).1, (x.route l s.cfg.rangeBase (newResponses s t)).2⟩
  | .fault f => .fault f
  | .refused r => .refused r

end Sys2Proof.Machine
end

