-- ==== Sys2Proof/Safety.lean ====
section
/-! DEFINITION. What claims about runs are stated in: the invariant of R14 and R7, the hazard of R153, the operations without state
(R24), which operation may raise which event (R131), and the bytes that go into and come out of BUF. -/

namespace Sys2Proof.Machine

/-- `LEN <= BUF_CAP` (R14) under legal instantiation parameters (R7). -/
def State.Inv (s : State) : Prop := s.cfg.Legal ∧ s.fits 0 = true

/-- BUF is even-misaligned (R28), and every transaction still offered feeds whole frames or nothing: the hazard of
R153, the port being the model's (log entry 1). -/
def State.MisalignedForWholeFrames (s : State) : Prop :=
  s.buf.length % 2 = 0 ∧ s.buf.length % 10 ≠ 0 ∧
    ∀ x ∈ s.port, ∃ p i, x = .packet p ∧ decode p = .ok i ∧ ∀ chunk, i = .feed chunk → chunk.length % 10 = 0

/-- The state an outcome leaves the block in: the next state, or the state a fault that is never final carries
(R129, R135). A refused transaction leaves none: it never reached the block (R53). -/
def Reaches (o : StepOutcome) (t : State) : Prop := resume o = .next t

/-- The operations of the reassembler, the only ones that may touch BUF (R13). -/
def touchesBuf : Instr → Bool
  | .feed _ => true
  | .drain => true
  | .inquire _ _ _ _ => false
  | .modify _ _ _ _ => false
  | .commitFlash _ _ _ _ => false
  | .crc16 _ _ => false
  | .encode _ _ _ _ => false
  | .decode _ => false
  | .rmux _ => false

/-- Which operation can raise which event (R131); a wire frame is judged as `DECODE` judges its operand. -/
def mayRaise : Instr → Event → Bool
  | _, .none => true
  | .decode _, .checksumMismatch => true
  | .decode _, .unknownFunction => true
  | .inquire _ _ _ _, .checksumMismatch => true
  | .modify _ _ _ _, .checksumMismatch => true
  | .commitFlash _ _ _ _, .checksumMismatch => true
  | .drain, .frameMisalignment => true
  | .feed _, .bufferOverflow => true
  | _, _ => false

/-- All bytes that left the reassembler in frames, in order (R27). -/
def drainedBytes (out : List Response) : List Byte :=
  (out.flatMap Response.frames).flatMap Frame.toBytes

/-- All bytes a program feeds, in order. -/
def fedBytes : List Instr → List Byte
  | [] => []
  | .feed chunk :: rest => chunk ++ fedBytes rest
  | _ :: rest => fedBytes rest

end Sys2Proof.Machine
end

