-- ==== Sys2Proof/Certificates/Slice0/Obligations.lean ====
section
/-! DEFINITION. What is claimed of the model. Each docstring names the rule it formalises, or the derivation or
decision of the spec, or the model's own choice, that it rests on. -/

open Sys2Proof Sys2Proof.Machine

/-! ### Reset and the step -/

/-- R146 (the spec's derivation from its decision D10): after reset BUF is empty, which is the aligned class, and a
`DRAIN` straight after reset returns no frame and no event. -/
def Obligations.ResetLeavesBufferEmpty : Prop :=
  State.reset.buf = [] ∧ alignmentOf State.reset.len = .aligned ∧
    exec .drain State.reset = .next { State.reset with out := [⟨.frames [], .none⟩] }

/-- R145, R147 (decision D10): the whole effect of the reset event is `BUF <- []`; no response is delivered and the
instantiation parameters stay. That reset arrives at the port is the model's choice (log entry 1). -/
def Obligations.ResetInputOnlyEmptiesBuffer : Prop :=
  ∀ (s : State) (rest : List Input), s.port = .reset :: rest →
    step s = .next { s with buf := [], port := rest }

/-- R143: between commands the block is idle with BUF held. The port is the model's choice (log entry 1). -/
def Obligations.IdleBlockHoldsState : Prop :=
  ∀ s : State, s.port = [] → step s = .next s

/-- R24, R30: a step runs the instruction the oldest offered transaction spells, in the state the previous one left.
The port and the bytes of a transaction are the model's choices (log entries 1 and 5). -/
def Obligations.StepRunsDecodedInstruction : Prop :=
  ∀ (s : State) (p : Packet) (rest : List Input) (i : Instr),
    s.port = .packet p :: rest → decode p = .ok i → step s = exec i { s with port := rest }

/-- R53 (decisions D14, D5): exactly the ill-formed transactions are refused at the interface; a refusal carries no
state, so it has no effect and no response. Which byte strings are well formed is the model's own layout: the selector
byte and the operand bytes (log entry 5), frame packets (log entry 6), an `ENCODE` with an unknown function byte (log
entry 7), offered at the port (log entry 1). -/
def Obligations.IllFormedTransactionsRefused : Prop :=
  ∀ (s : State) (p : Packet) (rest : List Input), s.port = .packet p :: rest →
    (p.wf = false ↔ ∃ why, step s = .refused (.illFormed why))

/-- The host's numbering of the opcode table (log entry 8): the very next step runs the instruction of the word. -/
def Obligations.FetchWordIsRunNext : Prop :=
  ∀ (s : State) (nbits w : Nat) (i : Instr),
    decodeTableWord nbits w = some i → step (s.withFetchWord nbits w) = exec i s

/-! ### Encodings -/

/-- Decoding what the encoder writes gives every instruction back, with every operand at every value (log entry 5
for the operand bytes of a command; R43 to R46 for a frame). -/
def Obligations.DecodeEncodeGivesInstructionBack : Prop :=
  ∀ i : Instr, decode (encode i) = .ok i

/-- Each transaction has one meaning: encoding what a command packet spells gives the packet back, and so does a
frame packet of a known function byte (log entries 5 and 6). -/
def Obligations.EncodeDecodeGivesPacketBack : Prop :=
  (∀ (bytes : List Byte) (i : Instr), decode (.command bytes) = .ok i → encode i = .command bytes) ∧
  (∀ (f : Frame) (fc : FunctionCode) (i : Instr), f.function = fc.toByte →
    decode (.frame f.toBytes) = .ok i → encode i = .frame f.toBytes)

/-- R53, R42 (decision D14), read on the model's own byte layout (log entry 5 for the bytes of a command, 6 for frame
packets, 7 for an `ENCODE` with an unknown function byte): the transactions that spell a well-formed instruction are
exactly the well-formed ones. -/
def Obligations.WellFormedPacketsAreTheDecoded : Prop :=
  ∀ p : Packet, p.wf = true ↔ ∃ i, decode p = .ok i ∧ i.wf = true

/-- R56 (decision D5): a selector above 5 names no operation, whatever bytes follow it. -/
def Obligations.ReservedSelectorsNameNothing : Prop :=
  ∀ (op : Byte) (operands : List Byte), 6 ≤ op.toNat →
    decode (.command (op :: operands)) = .error .reservedSelector

/-- R50 (the spec's derivation from R43, R44, R49): the four 80-bit patterns tell the kinds the decoder tells. -/
def Obligations.FramePatternsTellFrameKinds : Prop :=
  ∀ f : Frame,
    (FramePattern.inquire.Matches f ↔ ∃ id a v c, decode (.frame f.toBytes) = .ok (.inquire id a v c)) ∧
    (FramePattern.modify.Matches f ↔ ∃ id a v c, decode (.frame f.toBytes) = .ok (.modify id a v c)) ∧
    (FramePattern.commitRecognised.Matches f ↔ ∃ id a v c, decode (.frame f.toBytes) = .ok (.commitFlash id a v c)) ∧
    (FramePattern.commitWellFormed.Matches f ↔ ∃ id c, decode (.frame f.toBytes) = .ok (.commitFlash id 0 0 c))

/-- Words written out from the spec: E1, E2 and E4 of spec/95_test_vectors.md as wire frames, and one command of each
unit with the selectors of R52 (operand bytes: log entry 5). -/
def Obligations.SampleWordsDecode : Prop :=
  decode (.frame [0xAA, 0xAA, 0x55, 0x55, 0x06, 0x02, 0x00, 0x01, 0x4C, 0xC2])
    = .ok (.modify ⟨0xAA, 0xAA, 0x55, 0x55⟩ 2 1 0x4CC2) ∧
  decode (.frame [0xAA, 0xAA, 0x55, 0x55, 0x03, 0x00, 0x00, 0x00, 0x8E, 0xC6])
    = .ok (.inquire ⟨0xAA, 0xAA, 0x55, 0x55⟩ 0 0 0x8EC6) ∧
  decode (.frame [0xAA, 0xAA, 0x55, 0x55, 0xFF, 0x00, 0x00, 0x00, 0x5E, 0xB9])
    = .ok (.commitFlash ⟨0xAA, 0xAA, 0x55, 0x55⟩ 0 0 0x5EB9) ∧
  decode (.command [0, 0x12, 0x34, 0xAA]) = .ok (.crc16 0x1234 [0xAA]) ∧
  decode (.command [1, 1, 2, 3, 4, 3, 88, 0x12, 0x34]) = .ok (.encode ⟨1, 2, 3, 4⟩ 3 88 0x1234) ∧
  decode (.command [3, 0x55, 0x06]) = .ok (.feed [0x55, 0x06]) ∧
  decode (.command [4]) = .ok .drain ∧
  decode (.command [5, 31]) = .ok (.rmux 31)

/-- R45: on encode the value's high byte is at offset 6 and its low byte at offset 7; on decode the value is
`frame[6] * 256 + frame[7]`, zero extended. -/
def Obligations.ValueFieldIsBigEndian : Prop :=
  (∀ (s : State) (id : Ident) (fc : FunctionCode) (addr : Byte) (v : Word), ∃ f : Frame,
    exec (.encode id fc.toByte addr v) s = .next { s with out := s.out ++ [⟨.frame f, .none⟩] } ∧
    f.toBytes[6]? = some (v.extractLsb' 8 8) ∧ f.toBytes[7]? = some (v.extractLsb' 0 8)) ∧
  (∀ (s t : State) (f : Frame) (fc : FunctionCode) (addr : Byte) (v : Word),
    exec (.decode f) s = .next t → t.out = s.out ++ [⟨.decoded fc addr v, .none⟩] →
    v.toNat = f.valueHigh.toNat * 256 + f.valueLow.toNat)

/-! ### The CRC engine -/

/-- R63: `CRC16` answers `crc16(data, init)`, the fold of `crc_step`, and changes nothing else; no data gives `init`;
`init = 0` and all-zero data give 0; the worked example gives 0x4CC2. -/
def Obligations.Crc16AnswersTheFold : Prop :=
  (∀ (s : State) (init : Word) (data : List Byte),
    exec (.crc16 init data) s = .next { s with out := s.out ++ [⟨.crc (data.foldl crcStep init), .none⟩] }) ∧
  (∀ (s : State) (init : Word), exec (.crc16 init []) s = .next { s with out := s.out ++ [⟨.crc init, .none⟩] }) ∧
  (∀ (s : State) (n : Nat),
    exec (.crc16 0 (List.replicate n 0)) s = .next { s with out := s.out ++ [⟨.crc 0, .none⟩] }) ∧
  (∀ s : State, exec (.crc16 0xFFFF [0xAA, 0xAA, 0x55, 0x55, 0x06, 0x02, 0x00, 0x01]) s
    = .next { s with out := s.out ++ [⟨.crc 0x4CC2, .none⟩] })

/-- R61: `crc_step` XORs the byte into bits 15:8 and then does eight rounds of shift, and XOR of 0x1021 when the top
bit was set. -/
def Obligations.CrcStepIsEightRounds : Prop :=
  ∀ (acc : Word) (b : Byte),
    crcStep acc b
      = (fun a : Word => if a.getLsbD 15 = true then ((a <<< 1) &&& 0xFFFF#16) ^^^ 0x1021#16
          else (a <<< 1) &&& 0xFFFF#16)^[8] (acc ^^^ (b.setWidth 16 <<< 8))

/-- R64 (the spec's derivation): masking once after each byte, as the source does, gives the same step. -/
def Obligations.MaskingPerByteIsTheSameStep : Prop :=
  ∀ (acc : Word) (b : Byte), crcStepMaskedPerByte acc b = crcStep acc b

/-- R65 (the spec's derivation), on the operation: a byte range may be fed in pieces, each `CRC16` taking the result
of the one before as its `init`. -/
def Obligations.Crc16ChainsThroughInit : Prop :=
  ∀ (u v w : State) (data rest : List Byte) (init c : Word),
    exec (.crc16 init data) u = .next { u with out := u.out ++ [⟨.crc c, .none⟩] } →
    ∃ d, exec (.crc16 c rest) v = .next { v with out := v.out ++ [⟨.crc d, .none⟩] } ∧
      exec (.crc16 init (data ++ rest)) w = .next { w with out := w.out ++ [⟨.crc d, .none⟩] }

/-- R66 (the spec's derivation): the step and the whole CRC are linear over XOR. -/
def Obligations.CrcIsLinear : Prop :=
  (∀ (a c : Word) (b d : Byte), crcStep (a ^^^ c) (b ^^^ d) = crcStep a b ^^^ crcStep c d) ∧
  crcStep 0 0 = 0 ∧
  (∀ (p q : List Byte) (i j : Word), p.length = q.length →
    crc16 (List.zipWith (· ^^^ ·) p q) (i ^^^ j) = crc16 p i ^^^ crc16 q j)

/-- R67, first sentence (the spec's derivation): a byte sequence followed by its own CRC, high byte first, has CRC 0. -/
def Obligations.CrcOverItselfLeavesZero : Prop :=
  ∀ (bytes : List Byte) (init : Word),
    crc16 (bytes ++ [highByte (crc16 bytes init), lowByte (crc16 bytes init)]) init = 0

/-- R67, the consequence for frames (the spec's derivation): `DECODE`'s comparison of R72 and the test that the CRC
over all ten bytes is zero are the same check. -/
def Obligations.FrameCheckIsZeroResidue : Prop :=
  ∀ (s : State) (f : Frame),
    exec (.decode f) s = .next { s with out := s.out ++ [⟨.nothing, .checksumMismatch⟩] }
      ↔ crc16 f.toBytes 0xFFFF ≠ 0

/-! ### The frame codec -/

/-- R70: `ENCODE` packs identifier, function byte, address and value, high byte first, and appends the CRC of those
eight bytes from 0xFFFF, high byte first; nothing else changes and no event is possible. -/
def Obligations.EncodeBuildsTheFrame : Prop :=
  ∀ (s : State) (id : Ident) (fc : FunctionCode) (addr : Byte) (v : Word),
    ∃ (fb : Byte) (f : Frame),
      fb = (match fc with | .inquire => 3 | .modify => 6 | .commitFlash => 255) ∧
      exec (.encode id fb addr v) s = .next { s with out := s.out ++ [⟨.frame f, .none⟩] } ∧
      f.body = [id.b0, id.b1, id.b2, id.b3, fb, addr, v.extractLsb' 8 8, v.extractLsb' 0 8] ∧
      f.toBytes = f.body ++ [(crc16 f.body 0xFFFF).extractLsb' 8 8, (crc16 f.body 0xFFFF).extractLsb' 0 8]

/-- R53, R54 (decisions D8, D14): a function byte outside the closed set makes an `ENCODE` ill formed, and it is
refused by name. -/
def Obligations.EncodeRefusesUnknownFunctionBytes : Prop :=
  ∀ (s : State) (id : Ident) (fn addr : Byte) (v : Word), fn ≠ 3 → fn ≠ 6 → fn ≠ 255 →
    exec (.encode id fn addr v) s = .refused (.illFormed .functionByte)

/-- R72, R73 (decisions D7, D8, D9): `DECODE` compares the CRCs first, then reads the function byte; it answers one of
the three outcomes and changes nothing else. -/
def Obligations.DecodeChecksCrcThenFunction : Prop :=
  ∀ (s : State) (f : Frame),
    exec (.decode f) s = .next { s with out := s.out ++
      [if crc16 f.body 0xFFFF ≠ be16 f.crcHigh f.crcLow then ⟨.nothing, .checksumMismatch⟩
       else if f.function = 3 then ⟨.decoded .inquire f.address (be16 f.valueHigh f.valueLow), .none⟩
       else if f.function = 6 then ⟨.decoded .modify f.address (be16 f.valueHigh f.valueLow), .none⟩
       else if f.function = 255 then ⟨.decoded .commitFlash f.address (be16 f.valueHigh f.valueLow), .none⟩
       else ⟨.nothing, .unknownFunction⟩] }

/-- R75 (the source's round trip, with the spec's derived extension to `CommitFlash` and every address): decoding the
frame `ENCODE` answers gives the function, address and value back. -/
def Obligations.DecodeUndoesEncode : Prop :=
  ∀ (s u : State) (id : Ident) (fc : FunctionCode) (addr : Byte) (v : Word), ∃ f : Frame,
    exec (.encode id fc.toByte addr v) s = .next { s with out := s.out ++ [⟨.frame f, .none⟩] } ∧
    exec (.decode f) u = .next { u with out := u.out ++ [⟨.decoded fc addr v, .none⟩] }

/-- R78 (the spec's derivation): for each choice of the first eight bytes exactly one choice of the last two passes
the CRC check of `DECODE`. -/
def Obligations.EachBodyHasOneCrc : Prop :=
  ∀ (s : State) (f : Frame), ∃! c : Word,
    exec (.decode { f with crcHigh := highByte c, crcLow := lowByte c }) s
      ≠ .next { s with out := s.out ++ [⟨.nothing, .checksumMismatch⟩] }

/-- R60, R44 (the spec's derivation), read on the wire frames of the opcode table (log entry 6): each of the three
kinds answers its function, address and value if its CRC is right, and `ChecksumMismatch` if not; nothing else
changes. -/
def Obligations.WireFramesAnswerTheirFields : Prop :=
  ∀ (s : State) (id : Ident) (addr : Byte) (v c : Word),
    exec (.inquire id addr v c) s = .next { s with out := s.out ++
      [if crc16 [id.b0, id.b1, id.b2, id.b3, 3, addr, highByte v, lowByte v] 0xFFFF = c
       then ⟨.decoded .inquire addr v, .none⟩ else ⟨.nothing, .checksumMismatch⟩] } ∧
    exec (.modify id addr v c) s = .next { s with out := s.out ++
      [if crc16 [id.b0, id.b1, id.b2, id.b3, 6, addr, highByte v, lowByte v] 0xFFFF = c
       then ⟨.decoded .modify addr v, .none⟩ else ⟨.nothing, .checksumMismatch⟩] } ∧
    exec (.commitFlash id addr v c) s = .next { s with out := s.out ++
      [if crc16 [id.b0, id.b1, id.b2, id.b3, 255, addr, highByte v, lowByte v] 0xFFFF = c
       then ⟨.decoded .commitFlash addr v, .none⟩ else ⟨.nothing, .checksumMismatch⟩] }

/-- R60 (the spec's derivation): the decoder of frames is total on any ten bytes, and is `DECODE`: a frame packet has
the effect of the `DECODE` command on the same bytes (log entry 6). -/
def Obligations.FramePacketActsAsDecode : Prop :=
  ∀ (s : State) (f : Frame) (rest : List Input), s.port = .packet (.frame f.toBytes) :: rest →
    step s = exec (.decode f) { s with port := rest }

/-- R74 (decision D16): the identifier enters the CRC and nothing else; frames with right CRCs that differ in it alone
are answered alike. -/
def Obligations.IdentifierOnlyEntersCrc : Prop :=
  ∀ (s : State) (f g : Frame),
    crc16 f.body 0xFFFF = f.crc → crc16 g.body 0xFFFF = g.crc →
    f.function = g.function → f.address = g.address → f.value = g.value →
    exec (.decode f) s = exec (.decode g) s

/-! ### The reassembler -/

/-- R80: `FEED` appends the chunk and changes nothing else unless `LEN + len(chunk) > BUF_CAP`, which never holds when
BUF_CAP is infinity; then it raises `BufferOverflow` with BUF unchanged (R81, decision D11). That the overflow is a
fault of the model which carries the state the block goes on from is log entry 9, from R129, R135 and R144. -/
def Obligations.FeedAppendsOrOverflows : Prop :=
  ∀ (s : State) (chunk : List Byte),
    ((∀ cap, s.cfg.bufCap = some cap → s.buf.length + chunk.length ≤ cap) →
      exec (.feed chunk) s = .next { s with buf := s.buf ++ chunk, out := s.out ++ [⟨.nothing, .none⟩] }) ∧
    (∀ cap, s.cfg.bufCap = some cap → cap < s.buf.length + chunk.length →
      exec (.feed chunk) s
        = .fault (.bufferOverflow { s with out := s.out ++ [⟨.nothing, .bufferOverflow⟩] }))

/-- R82 (the spec's derivation): an empty chunk changes nothing but the responses, and two `FEED`s leave the BUF of
one `FEED` of the concatenation when neither overflows. -/
def Obligations.FeedsConcatenate : Prop :=
  ∀ (s : State) (a b : List Byte), s.fits (a.length + b.length) = true →
    exec (.feed []) s = .next { s with out := s.out ++ [⟨.nothing, .none⟩] } ∧
    ∃ t u, runProgram [.feed a, .feed b] s = .next t ∧ exec (.feed (a ++ b)) s = .next u ∧ t.buf = u.buf

/-- R83: `DRAIN` by LEN on entry. A multiple of ten: every frame, frame k being the bytes `10k` to `10k+9`, and BUF
empty. An odd length: BUF empty and `FrameMisalignment`. Any other even length: nothing changes. -/
def Obligations.DrainActsByLength : Prop :=
  ∀ s : State,
    (s.buf.length % 10 = 0 → ∃ fs : List Frame,
      exec .drain s = .next { s with buf := [], out := s.out ++ [⟨.frames fs, .none⟩] } ∧
      fs.length = s.buf.length / 10 ∧
      ∀ k, k < s.buf.length / 10 → (fs[k]?).map Frame.toBytes = some ((s.buf.drop (10 * k)).take 10)) ∧
    (s.buf.length % 2 = 1 →
      exec .drain s = .next { s with buf := [], out := s.out ++ [⟨.frames [], .frameMisalignment⟩] }) ∧
    (s.buf.length % 2 = 0 → s.buf.length % 10 ≠ 0 →
      exec .drain s = .next { s with out := s.out ++ [⟨.frames [], .none⟩] })

/-- R31 (the spec's derivation): a second `DRAIN` finds BUF empty and raises nothing, except after an even-misaligned
one, where it has the same outcome again. -/
def Obligations.SecondDrainFindsNothing : Prop :=
  ∀ s : State, ∃ t u, exec .drain s = .next t ∧ exec .drain t = .next u ∧
    u = { t with out := t.out ++ [⟨.frames [], .none⟩] } ∧
    (s.buf.length % 2 = 0 ∧ s.buf.length % 10 ≠ 0 → t = { s with out := s.out ++ [⟨.frames [], .none⟩] }) ∧
    (¬ (s.buf.length % 2 = 0 ∧ s.buf.length % 10 ≠ 0) → t.buf = [])

/-- R87 (the spec's derivation, decision D21): however a stream is cut into chunks, and with `DRAIN`s in between that
find LEN zero or even-misaligned, the last `DRAIN` answers and leaves what one `FEED` of the whole stream and one
`DRAIN` do. -/
def Obligations.ChunkingDoesNotMatter : Prop :=
  ∀ (s : State) (prog : List Instr),
    s.buf = [] → s.fits (fedBytes prog).length = true →
    (∀ i ∈ prog, i = .drain ∨ ∃ chunk, i = .feed chunk) →
    (∀ before after, prog = before ++ .drain :: after →
      (fedBytes before).length = 0 ∨
        ((fedBytes before).length % 2 = 0 ∧ (fedBytes before).length % 10 ≠ 0)) →
    ∃ t u r, runProgram (prog ++ [.drain]) s = .next t ∧
      runProgram [.feed (fedBytes prog), .drain] s = .next u ∧
      t.buf = u.buf ∧ t.out.getLast? = some r ∧ u.out.getLast? = some r

/-- R88 (the spec's derivation): a frame delivered as 3, 3 and 4 bytes with `PUSH` for each piece is never delivered;
two `FrameMisalignment` events are raised and its last four bytes stay in BUF. -/
def Obligations.FrameSplitAtOddOffsetIsLost : Prop :=
  ∀ (s : State) (f : Frame), s.buf = [] → s.fits 10 = true →
    andThen (push (f.toBytes.take 3) s) (fun a =>
      andThen (push ((f.toBytes.drop 3).take 3) a) (push (f.toBytes.drop 6)))
    = .next { s with
        buf := f.toBytes.drop 6,
        out := s.out ++ [⟨.nothing, .none⟩, ⟨.frames [], .frameMisalignment⟩, ⟨.nothing, .none⟩,
          ⟨.frames [], .frameMisalignment⟩, ⟨.nothing, .none⟩, ⟨.frames [], .none⟩] }

/-- R90 (the spec's derivation): a host that knows BUF is not empty can empty it: `DRAIN` at an odd length, `FEED` of
any one byte and `DRAIN` at an even one; `FrameMisalignment` is raised. -/
def Obligations.ForcedDiscardEmptiesBuffer : Prop :=
  ∀ (s : State) (b : Byte), s.buf ≠ [] → s.fits 1 = true → ∃ t,
    runProgram (if s.buf.length % 2 = 1 then [.drain] else [.feed [b], .drain]) s = .next t ∧
      t.buf = [] ∧ t.out.getLast? = some ⟨.frames [], .frameMisalignment⟩

/-- R153, R89 (the spec's derivation): an even misalignment never heals while only whole frames arrive: whatever is
fed in multiples of ten and wherever `DRAIN`s fall, no frame and no event comes out and BUF only grows. BUF_CAP is
infinity here. -/
def Obligations.EvenMisalignmentNeverHeals : Prop :=
  ∀ (s : State) (prog : List Instr),
    s.cfg.bufCap = none → s.buf.length % 2 = 0 → s.buf.length % 10 ≠ 0 →
    (∀ i ∈ prog, i = .drain ∨ ∃ chunk, i = .feed chunk ∧ chunk.length % 10 = 0) →
    ∃ t, runProgram prog s = .next t ∧ t.buf = s.buf ++ fedBytes prog ∧
      ∀ r ∈ newResponses s t, r = ⟨.nothing, .none⟩ ∨ r = ⟨.frames [], .none⟩

/-- R153 (the spec's derivation), as an invariant of the step: while every offered transaction is a command that feeds
whole frames or feeds nothing, each step keeps BUF even-misaligned, and no frame and no `FrameMisalignment` comes out,
whatever BUF_CAP is. The port is the model's choice (log entry 1). -/
def Obligations.EvenMisalignmentIsKeptByStep : Prop :=
  ∀ s t : State, s.MisalignedForWholeFrames → Reaches (step s) t → t.MisalignedForWholeFrames ∧
    (t = s ∨ ∃ r, t.out = s.out ++ [r] ∧ r.frames = [] ∧ r.event ≠ .frameMisalignment)

/-- R154 (the spec's derivation, decision D11): with a finite BUF_CAP, a BUF that is full and even-misaligned stays so:
every `FEED` of a byte or more overflows and every `DRAIN` answers nothing, however long the host goes on. -/
def Obligations.FullMisalignedBufferStaysStuck : Prop :=
  ∀ (s : State) (prog : List Instr) (cap : Nat),
    s.cfg.bufCap = some cap → s.buf.length = cap → cap % 2 = 0 → cap % 10 ≠ 0 →
    (∀ i ∈ prog, i = .drain ∨ ∃ chunk, chunk ≠ [] ∧ i = .feed chunk) →
    ∃ t, runResuming prog s = .next t ∧ t.buf = s.buf ∧
      ∀ r ∈ newResponses s t, r = ⟨.frames [], .none⟩ ∨ r = ⟨.nothing, .bufferOverflow⟩

/-- R27, R37: bytes leave in the order they entered, and none is lost but by a `FrameMisalignment`: the frames a
program drains, followed by the BUF it leaves, are the BUF it found followed by what it fed. -/
def Obligations.BytesLeaveInOrder : Prop :=
  ∀ (prog : List Instr) (s t : State), runProgram prog s = .next t →
    (∀ r ∈ newResponses s t, r.event ≠ .frameMisalignment) →
    drainedBytes (newResponses s t) ++ t.buf = s.buf ++ fedBytes prog

/-! ### The multiplexer -/

/-- R93: `RMUX` answers the first range in listing order that holds the address, with the offset from its base, and
`(NONE, 0)` when there is none; nothing else changes and no event is possible. -/
def Obligations.RmuxAnswersFirstHoldingRange : Prop :=
  ∀ (s : State) (addr : Byte),
    exec (.rmux addr) s = .next { s with out := s.out ++
      [⟨match RangeName.all.find? (fun r =>
            decide ((s.cfg.rangeBase.base r).toNat ≤ addr.toNat ∧
              addr.toNat ≤ (s.cfg.rangeBase.base r).toNat + r.length - 1)) with
        | some r => .selected (some r) (addr.toNat - (s.cfg.rangeBase.base r).toNat)
        | none => .selected none 0, .none⟩] }

/-- R94, R95, R99 (the spec's derivation): under every legal RANGE_BASE a defined address has exactly one range and
index, inside the range's length, which `RMUX` answers; an address in 92..255 answers `NONE`. -/
def Obligations.RmuxSelectsTheOneRange : Prop :=
  ∀ (s : State) (addr : Byte), s.cfg.rangeBase.Legal →
    (addr.toNat ≤ 91 → ∃ (r : RangeName) (k : Nat), k < r.length ∧
      addr.toNat = (s.cfg.rangeBase.base r).toNat + k ∧
      exec (.rmux addr) s = .next { s with out := s.out ++ [⟨.selected (some r) k, .none⟩] } ∧
      ∀ (q : RangeName) (j : Nat), j < q.length → addr.toNat = (s.cfg.rangeBase.base q).toNat + j →
        q = r ∧ j = k) ∧
    (92 ≤ addr.toNat →
      exec (.rmux addr) s = .next { s with out := s.out ++ [⟨.selected none 0, .none⟩] })

/-- R94 (the spec's derivation): the answer does not depend on the order in which the ranges are tried. -/
def Obligations.RmuxOrderDoesNotMatter : Prop :=
  ∀ (b : RangeBase) (l : List RangeName), b.Legal → l.Perm RangeName.all →
    ∀ addr : Byte, selectRange b addr l = rmux b addr

/-- R96 (the spec's derivation): `addr_of` and `RMUX` undo each other, and an index outside its range has no
address. -/
def Obligations.AddressOfInvertsRmux : Prop :=
  ∀ (b : RangeBase) (r : RangeName) (k : Nat), b.Legal →
    (k < r.length → ∃ a : Byte, addrOf b r k = some a ∧ a.toNat = (b.base r).toNat + k ∧ rmux b a = (some r, k)) ∧
    (∀ a : Byte, rmux b a = (some r, k) → addrOf b r k = some a) ∧
    (r.length ≤ k → addrOf b r k = none)

/-- R98, R34 (decision D12, a guess the spec marks as its own; log entry 3): `RMUX` under the default RANGE_BASE, for
every address. -/
def Obligations.DefaultTableAnswers : Prop :=
  ∀ (s : State) (addr : Byte), s.cfg.rangeBase = RangeBase.listingOrder →
    exec (.rmux addr) s = .next { s with out := s.out ++
      [⟨if addr.toNat ≤ 29 then .selected (some .linReal) addr.toNat
        else if addr.toNat ≤ 59 then .selected (some .linCorr) (addr.toNat - 30)
        else if addr.toNat ≤ 60 then .selected (some .segCount) 0
        else if addr.toNat ≤ 64 then .selected (some .adCal) (addr.toNat - 61)
        else if addr.toNat ≤ 66 then .selected (some .tempRange) (addr.toNat - 65)
        else if addr.toNat ≤ 71 then .selected (some .vdacCal) (addr.toNat - 67)
        else if addr.toNat ≤ 73 then .selected (some .emissivity) (addr.toNat - 72)
        else if addr.toNat ≤ 77 then .selected (some .curCal) (addr.toNat - 74)
        else if addr.toNat ≤ 81 then .selected (some .peakHold) (addr.toNat - 78)
        else if addr.toNat ≤ 84 then .selected (some .lowAlarm) (addr.toNat - 82)
        else if addr.toNat ≤ 87 then .selected (some .highAlarm) (addr.toNat - 85)
        else if addr.toNat ≤ 88 then .selected (some .respTime) 0
        else if addr.toNat ≤ 90 then .selected (some .devId) (addr.toNat - 89)
        else if addr.toNat ≤ 91 then .selected (some .password) 0
        else .selected none 0, .none⟩] }

/-- R33 (the spec's derivation of the tiling): the lengths sum to 92, so 14 disjoint ranges inside 0..91 leave no
address out. -/
def Obligations.DisjointRangesTileTheAddresses : Prop :=
  (RangeName.all.map RangeName.length).sum = 92 ∧
  ∀ b : RangeBase, b.Within → b.Disjoint → b.Covering

/-! ### The whole machine -/

/-- R14, R7: `LEN <= BUF_CAP` under legal instantiation parameters is kept by every step, and by the block going on
after an overflow (R129, R135). -/
def Obligations.StepKeepsBufferWithinCapacity : Prop :=
  ∀ s t : State, s.Inv → Reaches (step s) t → t.Inv

/-- R23, R14 (decision D10): the state after reset meets the invariant, whatever legal parameters the block has; the
defaults of R7 are legal. -/
def Obligations.ResetMeetsInvariant : Prop :=
  (∀ cfg : Config, cfg.Legal → (State.resetWith cfg).Inv) ∧ State.reset.Inv

/-- R13, R17, R24: the frame of every instruction. Parameters and port stay, one response is added after the earlier
ones, and BUF is written by `FEED` and `DRAIN` only. -/
def Obligations.OnlyReassemblerWritesBuffer : Prop :=
  ∀ (i : Instr) (s t : State), Reaches (exec i s) t →
    t.cfg = s.cfg ∧ t.port = s.port ∧ (∃ r, t.out = s.out ++ [r]) ∧
    (t.buf ≠ s.buf → (∃ chunk, i = .feed chunk) ∨ i = .drain)

/-- R53, R131, R159: every well-formed instruction completes in every state, unless it is a `FEED` that does not fit a
finite BUF_CAP. -/
def Obligations.WellFormedInstructionsComplete : Prop :=
  ∀ (i : Instr) (s : State), i.wf = true → (∀ chunk, i = .feed chunk → s.fits chunk.length = true) →
    ∃ t, exec i s = .next t

/-- R144: the only fault of an instruction is `BufferOverflow`, the only refusal that of an ill-formed command. -/
def Obligations.StopsAreOverflowOrIllFormed : Prop :=
  ∀ (i : Instr) (s : State),
    (∀ f, exec i s = .fault f → ∃ chunk cap, i = .feed chunk ∧ s.cfg.bufCap = some cap ∧
      cap < s.buf.length + chunk.length) ∧
    (∀ r, exec i s = .refused r → i.wf = false)

/-- R131, R134 (the spec's derivation): which operation can raise which event, and what an event leaves: BUF unchanged
and no result, or, for `FrameMisalignment`, BUF empty and no frames. A wire frame is judged as `DECODE`'s operand
(log entry 6). -/
def Obligations.EventsAsTabled : Prop :=
  ∀ (i : Instr) (s t : State), Reaches (exec i s) t → ∃ r, t.out = s.out ++ [r] ∧
    mayRaise i r.event = true ∧
    (r.event = .checksumMismatch ∨ r.event = .unknownFunction ∨ r.event = .bufferOverflow →
      t.buf = s.buf ∧ r.result = .nothing) ∧
    (r.event = .frameMisalignment → t.buf = [] ∧ r.result = .frames [])

/-- R24, R31 (the spec's derivation): an operation that is not the reassembler's answers the same in every state of a
block with the same parameters, and leaves the block's state unchanged. -/
def Obligations.PureOperationsIgnoreState : Prop :=
  ∀ (i : Instr) (s u : State), touchesBuf i = false → i.wf = true → s.cfg = u.cfg →
    ∃ r, exec i s = .next { s with out := s.out ++ [r] } ∧ exec i u = .next { u with out := u.out ++ [r] }

/-! ### Programs of the host -/

/-- R59 (decision D6): `RECEIVE` of one frame that `ENCODE` built, into an empty BUF, delivers the frame, its fields and
its range, and leaves BUF empty (log entry 10 for the order of its operations). -/
def Obligations.ReceiveDeliversOneFrame : Prop :=
  ∀ (s : State) (id : Ident) (fc : FunctionCode) (addr : Byte) (v : Word), s.buf = [] → s.fits 10 = true →
    receive (buildFrame id fc.toByte addr v).toBytes s = .next { s with out := s.out ++
      [⟨.nothing, .none⟩, ⟨.frames [buildFrame id fc.toByte addr v], .none⟩, ⟨.decoded fc addr v, .none⟩,
       ⟨.selected (rmux s.cfg.rangeBase addr).1 (rmux s.cfg.rangeBase addr).2, .none⟩] }

/-- R102, R105, R107 to R111, R119: first the four readings of a number and the two kinds of field; then, in an `Open`
session, what becomes of ten bytes that arrive in an empty BUF and are drained. A frame that `DECODE` rejects, one of
neither function 3 nor 6 (the host ignores the fields of a `CommitFlash`, R77), or one outside the ranges leaves the
session as it was and publishes nothing. Otherwise exactly the update of its range is published and the map holds it:
a point, the segment count, a group's flag, a calibration bound, the device identifier's part, any other field;
PASSWORD publishes nothing. What the update leaves alone is unchanged. What the source withholds is `l`, and the events'
unlisted fields and an off flag's values are the model's (log entries 12, 17, 18, 20); that the host drains at once is an argument (log entry 15). -/
def Obligations.InboundFrameReachesRegisterMap : Prop :=
  (∀ (c : Scale) (v : Word), c.read v
    = (if c.signedField then (asSigned16 v : Rat) else (v.toNat : Rat)) / (if c.tenthsScaled then 10 else 1)) ∧
  (∀ (c : Scale) (ons : List Word) (v : Word), (FieldKind.number c).read v = .number (c.read v) ∧
    (FieldKind.flag ons).read v = .onOff (ons.contains v)) ∧
  ∀ (x : Session) (l : HostLayout) (s : State) (f : Frame), x.phase = .opened → s.buf = [] → s.fits 10 = true →
    ∃ (t : State) (y : Session) (us : List SemanticUpdate),
      x.onBytesAvailable l true f.toBytes s = .next ⟨t, y, us⟩ ∧ t.buf = [] ∧ y.phase = .opened ∧ y.id = x.id ∧
      (crc16 f.toBytes 0xFFFF ≠ 0 ∨ (f.function ≠ 3 ∧ f.function ≠ 6) ∨ (rmux s.cfg.rangeBase f.address).1 = none →
        y = x ∧ us = []) ∧
      (crc16 f.toBytes 0xFFFF = 0 → f.function = 3 ∨ f.function = 6 →
        ∀ (r : RangeName) (k : Nat), rmux s.cfg.rangeBase f.address = (some r, k) →
        (r = .linReal → us = [.linearPointUpdated .real k ((l.pointScale .real).read f.value)] ∧
          (k < 30 → y.map.table.real[k]? = some ((l.pointScale .real).read f.value)) ∧
          (∀ j, j ≠ k → y.map.table.real[j]? = x.map.table.real[j]?) ∧
          y.map.table.line = x.map.table.line ∧ y.map.table.count = x.map.table.count ∧
          y.map.fields = x.map.fields) ∧
        (r = .linCorr → us = [.linearPointUpdated .line k ((l.pointScale .line).read f.value)] ∧
          (k < 30 → y.map.table.line[k]? = some ((l.pointScale .line).read f.value)) ∧
          (∀ j, j ≠ k → y.map.table.line[j]? = x.map.table.line[j]?) ∧
          y.map.table.real = x.map.table.real ∧ y.map.table.count = x.map.table.count ∧
          y.map.fields = x.map.fields) ∧
        (r = .segCount → us = [.segmentCountUpdated f.value.toNat] ∧
          (1 ≤ f.value.toNat → f.value.toNat ≤ 30 → y.map.table.count = f.value.toNat) ∧
          (f.value.toNat = 0 ∨ 30 < f.value.toNat → y.map.table = l.countOutside x.map.table f.value.toNat) ∧
          y.map.fields = x.map.fields) ∧
        (∀ g : ToggleName, r = g.range → k = (l.toggle g).flag →
          us = [.toggleUpdated g ((l.toggle g).onValues.contains f.value)] ∧
          y.map.field? r k = some (.onOff ((l.toggle g).onValues.contains f.value)) ∧
          ((l.toggle g).onValues.contains f.value = false → ∀ j, y.map.threshold? l g j = none) ∧
          ((l.toggle g).onValues.contains f.value = true → ∀ j ∈ (l.toggle g).thresholds.toList,
            j ≠ (l.toggle g).flag → y.map.threshold? l g j = x.map.field? r j)) ∧
        (∀ g : ToggleName, r = g.range → k ≠ (l.toggle g).flag →
          us = [.field r k ((l.kind r k).read f.value)] ∧ y.map.field? r k = some ((l.kind r k).read f.value)) ∧
        (r = .adCal ∨ r = .vdacCal ∨ r = .curCal →
          us = [.calibrationBoundUpdated r k ((l.kind r k).read f.value)] ∧
          y.map.field? r k = some ((l.kind r k).read f.value)) ∧
        (r = .tempRange ∨ r = .emissivity ∨ r = .respTime →
          us = [.field r k ((l.kind r k).read f.value)] ∧ y.map.field? r k = some ((l.kind r k).read f.value)) ∧
        (r = .devId → us = [.field r k (.date f.value (l.splitDate k f.value))] ∧
          y.map.field? r k = some (.date f.value (l.splitDate k f.value))) ∧
        (r = .password → y = x ∧ us = []) ∧
        (r ≠ .linReal → r ≠ .linCorr → r ≠ .segCount → y.map.table = x.map.table ∧
          ∀ q j, ¬ (q = r ∧ j = k) → y.map.field? q j = x.map.field? q j))

/-- R112 and R116, with the model's choice that a request's segment count is the number of points it lists (log entry
12): a linearization table write of n points, 1 to 30, is per point the real and then the corrected write, then the
segment count, then the commit frame, 2n + 2 commands; any other count fails with `InvalidSegmentCount`. -/
def Obligations.LinearizationWriteSequence : Prop :=
  ∀ (x : Session) (l : HostLayout) (b : RangeBase) (points : List LinPoint), x.phase = .opened → b.Legal →
    (1 ≤ points.length → points.length ≤ 30 → ∃ cmds,
      x.submit l b (.linearization points) = .ok cmds ∧ cmds.length = 2 * points.length + 2 ∧
      (∀ k p, points[k]? = some p →
        (∃ a, addrOf b .linReal k = some a ∧ cmds[2 * k]? = some (.encode x.id 6 a p.real)) ∧
        (∃ a, addrOf b .linCorr k = some a ∧ cmds[2 * k + 1]? = some (.encode x.id 6 a p.corr))) ∧
      (∃ a, addrOf b .segCount 0 = some a ∧
        cmds[2 * points.length]? = some (.encode x.id 6 a (BitVec.ofNat 16 points.length))) ∧
      cmds[2 * points.length + 1]? = some (.encode x.id 255 0 0)) ∧
    (points.length = 0 ∨ 30 < points.length → x.submit l b (.linearization points) = .error .invalidSegmentCount)

/-- R113: a toggle-group write is the flag, then the group's one or two thresholds only if turning on, then the commit
frame. The addresses, the flag values and the register value of a threshold, which the source withholds, are `l`. The request carries a value for each
threshold of the group (the other case is log entry 16 and nothing is stated of it). -/
def Obligations.ToggleWriteSequence : Prop :=
  ∀ (x : Session) (l : HostLayout) (b : RangeBase) (g : ToggleName) (thresholds : OneOrTwo Rat),
    x.phase = .opened → ∃ flagAddr firstAddr : Byte,
    addrOf b g.range (l.toggle g).flag = some flagAddr ∧
    addrOf b g.range (l.toggle g).thresholds.first = some firstAddr ∧
    x.submit l b (.toggle g false thresholds)
      = .ok [.encode x.id 6 flagAddr (l.toggle g).offValue, .encode x.id 255 0 0] ∧
    ((l.toggle g).thresholds.second = none → thresholds.second = none →
      x.submit l b (.toggle g true thresholds)
        = .ok [.encode x.id 6 flagAddr (l.toggle g).onValue,
            .encode x.id 6 firstAddr (l.thresholdValue g (l.toggle g).thresholds.first thresholds.first),
            .encode x.id 255 0 0]) ∧
    (∀ k v, (l.toggle g).thresholds.second = some k → thresholds.second = some v → ∃ secondAddr : Byte,
      addrOf b g.range k = some secondAddr ∧
      x.submit l b (.toggle g true thresholds)
        = .ok [.encode x.id 6 flagAddr (l.toggle g).onValue,
            .encode x.id 6 firstAddr (l.thresholdValue g (l.toggle g).thresholds.first thresholds.first),
            .encode x.id 6 secondAddr (l.thresholdValue g k v), .encode x.id 255 0 0])

/-- R115: an emissivity write checks the percentage against [0, 100], inclusive, and produces no command outside it.
How a percentage becomes the one or two register writes is the host's own (`l`). -/
def Obligations.EmissivityWriteChecksPercentage : Prop :=
  ∀ (x : Session) (l : HostLayout) (b : RangeBase) (percent : Rat), x.phase = .opened →
    (0 ≤ percent → percent ≤ 100 → ∃ writes : List RegWrite,
      writes.map (fun w => (some w.1, w.2))
        = (l.emissivityWrites percent).toList.map (fun w => (addrOf b .emissivity w.1, w.2)) ∧
      x.submit l b (.emissivity percent)
        = .ok (writes.map (fun w => .encode x.id 6 w.1 w.2) ++ [.encode x.id 255 0 0])) ∧
    (percent < 0 ∨ 100 < percent → x.submit l b (.emissivity percent) = .error .invalidPercentage)

/-- R119, R122: while the session is `Closed` every request fails with `TransportNotOpen` and no command is issued. -/
def Obligations.ClosedSessionIssuesNothing : Prop :=
  ∀ (x : Session) (l : HostLayout) (b : RangeBase) (r : Request),
    x.phase = .closed → x.submit l b r = .error .transportNotOpen

/-- R109: a segment count in 1..30 clears both tables from that index on, keeps the points below it and touches no
other field; in every table the count is in 1..30, and a point at or past it reads as cleared (that its slot may hold
something is log entry 12). -/
def Obligations.SegmentCountClearsTail : Prop :=
  (∀ (l : HostLayout) (m : RegisterMap) (n : Nat), 1 ≤ n → n ≤ 30 → ∃ m' : RegisterMap,
    m.apply l (.segmentCountUpdated n) = m' ∧ m'.table.count = n ∧ m'.fields = m.fields ∧
    (∀ k, k < n → m'.table.real[k]? = m.table.real[k]? ∧ m'.table.line[k]? = m.table.line[k]?) ∧
    (∀ k, n ≤ k → k < 30 → m'.table.real[k]? = some 0 ∧ m'.table.line[k]? = some 0)) ∧
  (∀ t : LinTable, 1 ≤ t.count ∧ t.count ≤ 30 ∧
    ∀ (kind : PointKind) (k : Nat), t.count ≤ k → k < 30 → t.point? kind k = some 0)

/-- R101: the signed reading, its range, its inverse for building a write, and the rule's examples. -/
def Obligations.SignedReadingOfValues : Prop :=
  (∀ v : Word, (v.toNat ≤ 32767 → asSigned16 v = v.toNat) ∧ (32768 ≤ v.toNat → asSigned16 v = (v.toNat : Int) - 65536) ∧
    -32768 ≤ asSigned16 v ∧ asSigned16 v ≤ 32767) ∧
  (∀ n : Int, 0 ≤ n → n ≤ 32767 → ∃ v : Word, ofSigned16 n = some v ∧ (v.toNat : Int) = n ∧ asSigned16 v = n) ∧
  (∀ n : Int, -32768 ≤ n → n ≤ -1 → ∃ v : Word, ofSigned16 n = some v ∧ (v.toNat : Int) = n + 65536 ∧
    asSigned16 v = n) ∧
  asSigned16 32767 = 32767 ∧ asSigned16 32768 = -32768 ∧ asSigned16 65535 = -1 ∧ asSigned16 65526 = -10
end

