-- ==== Sys2Proof/Laws/Decode.lean ====
section
/-! SUPPORT. Byte order, frame layout, and what the decoder answers. -/

namespace Sys2Proof

@[simp] theorem be16_high_low (w : Word) : be16 (highByte w) (lowByte w) = w := by
  apply BitVec.eq_of_getLsbD_eq
  intro i hi
  simp only [be16, highByte, lowByte, BitVec.getLsbD_append, BitVec.getLsbD_extractLsb']
  by_cases h : i < 8
  · simp [h]
  · have h8 : i - 8 < 8 := by omega
    simp [h, h8, show 8 + (i - 8) = i by omega]

@[simp] theorem highByte_be16 (h l : Byte) : highByte (be16 h l) = h := by
  apply BitVec.eq_of_getLsbD_eq
  intro i hi
  simp only [highByte, be16, BitVec.getLsbD_extractLsb', BitVec.getLsbD_append]
  simp [hi]

@[simp] theorem lowByte_be16 (h l : Byte) : lowByte (be16 h l) = l := by
  apply BitVec.eq_of_getLsbD_eq
  intro i hi
  simp only [lowByte, be16, BitVec.getLsbD_extractLsb', BitVec.getLsbD_append]
  simp [hi]

/-- R45, R46: `high * 256 + low`. -/
theorem be16_toNat (h l : Byte) : (be16 h l).toNat = h.toNat * 256 + l.toNat := by
  have := l.isLt
  simp only [be16, BitVec.toNat_append]
  rw [← Nat.shiftLeft_add_eq_or_of_lt this, Nat.shiftLeft_eq]

@[simp] theorem FunctionCode.ofByte?_toByte (fc : FunctionCode) :
    FunctionCode.ofByte? fc.toByte = some fc := by
  cases fc <;> rfl

/-- A byte names a function code exactly when it is that code's byte. -/
theorem FunctionCode.ofByte?_eq_some {b : Byte} {fc : FunctionCode} :
    FunctionCode.ofByte? b = some fc ↔ b = fc.toByte := by
  constructor
  · intro h
    simp only [FunctionCode.ofByte?] at h
    split at h
    · cases h; assumption
    split at h
    · cases h; assumption
    split at h
    · cases h; assumption
    · cases h
  · rintro rfl
    exact ofByte?_toByte fc

/-- A byte outside the closed set is none of the three. -/
theorem FunctionCode.ofByte?_eq_none {b : Byte} :
    FunctionCode.ofByte? b = none ↔ b ≠ 3 ∧ b ≠ 6 ∧ b ≠ 255 := by
  simp only [FunctionCode.ofByte?]
  split
  · simp_all
  split
  · simp_all
  split
  · simp_all
  · simp_all

theorem knownFunctionByte_eq (b : Byte) : knownFunctionByte b = (FunctionCode.ofByte? b).isSome := by
  simp only [FunctionCode.ofByte?, knownFunctionByte]
  split
  · simp_all
  split
  · simp_all
  split
  · simp_all
  · simp_all

@[simp] theorem Frame.ofBytes?_toBytes (f : Frame) : Frame.ofBytes? f.toBytes = some f := rfl

/-- Ten bytes and no others make a frame, and it is the frame with those bytes. -/
theorem Frame.ofBytes?_eq_some {bs : List Byte} {f : Frame} :
    Frame.ofBytes? bs = some f ↔ f.toBytes = bs := by
  constructor
  · intro h
    unfold Frame.ofBytes? at h
    split at h
    · cases h; rfl
    · cases h
  · rintro rfl
    rfl

@[simp] theorem Frame.toBytes_length (f : Frame) : f.toBytes.length = 10 := rfl

/-- A list makes a frame exactly when it has ten bytes. -/
theorem Frame.ofBytes?_isSome (bs : List Byte) : (Frame.ofBytes? bs).isSome = (bs.length == 10) := by
  rcases bs with _ | ⟨_, _ | ⟨_, _ | ⟨_, _ | ⟨_, _ | ⟨_, _ | ⟨_, _ | ⟨_, _ | ⟨_, _ | ⟨_, _ | ⟨_, _ | ⟨_, _⟩⟩⟩⟩⟩⟩⟩⟩⟩⟩⟩ <;>
    simp [Frame.ofBytes?]

@[simp] theorem Frame.ofFields_value (id : Ident) (fb addr : Byte) (v c : Word) :
    (Frame.ofFields id fb addr v c).value = v := by
  simp [Frame.ofFields, Frame.value]

@[simp] theorem Frame.ofFields_crc (id : Ident) (fb addr : Byte) (v c : Word) :
    (Frame.ofFields id fb addr v c).crc = c := by
  simp [Frame.ofFields, Frame.crc]

@[simp] theorem Frame.ofFields_id (id : Ident) (fb addr : Byte) (v c : Word) :
    (Frame.ofFields id fb addr v c).id = id := rfl

@[simp] theorem Frame.ofFields_function (id : Ident) (fb addr : Byte) (v c : Word) :
    (Frame.ofFields id fb addr v c).function = fb := rfl

@[simp] theorem Frame.ofFields_address (id : Ident) (fb addr : Byte) (v c : Word) :
    (Frame.ofFields id fb addr v c).address = addr := rfl

/-- Every frame is the frame of its own fields. -/
@[simp] theorem Frame.ofFields_self (f : Frame) :
    Frame.ofFields f.id f.function f.address f.value f.crc = f := by
  simp [Frame.ofFields, Frame.value, Frame.crc]

/-- The CRC field is no part of the bytes it covers (R46). -/
theorem Frame.body_ofFields (id : Ident) (fb addr : Byte) (v c : Word) :
    (Frame.ofFields id fb addr v c).body
      = [id.b0, id.b1, id.b2, id.b3, fb, addr, highByte v, lowByte v] := rfl

/-- The bytes of a frame are its body and its two CRC bytes. -/
theorem Frame.toBytes_eq (f : Frame) : f.toBytes = f.body ++ [f.crcHigh, f.crcLow] := rfl

/-- The frame packet of a frame spells what its function byte says. -/
@[simp] theorem decode_frame_toBytes (f : Frame) : decode (.frame f.toBytes) = .ok f.toInstr := rfl

end Sys2Proof
end

