-- ==== Sys2Proof/Laws/Crc.lean ====
section
/-! SUPPORT. The CRC engine: the fold, and the linear round. -/

namespace Sys2Proof.Machine

@[simp] theorem crc16_nil (init : Word) : crc16 [] init = init := rfl

@[simp] theorem crc16_cons (b : Byte) (s : List Byte) (init : Word) :
    crc16 (b :: s) init = crc16 s (crcStep init b) := rfl

/-- A fold over a concatenation goes on from where the first part ended. -/
theorem crc16_append (s t : List Byte) (init : Word) :
    crc16 (s ++ t) init = crc16 t (crc16 s init) := List.foldl_append

@[simp] theorem crcRounds_zero (a : Word) : crcRounds 0 a = a := rfl

theorem crcRounds_succ (n : Nat) (a : Word) : crcRounds (n + 1) a = crcRounds n (crcRound a) := rfl

/-- One round is linear over XOR: the top bits decide independently. -/
theorem crcRound_xor (a b : Word) : crcRound (a ^^^ b) = crcRound a ^^^ crcRound b := by
  simp only [crcRound, BitVec.msb_xor]
  have hcancel : ∀ x y p : Word, (x ^^^ p) ^^^ (y ^^^ p) = x ^^^ y := by
    intro x y p
    rw [show (x ^^^ p) ^^^ (y ^^^ p) = (x ^^^ y) ^^^ (p ^^^ p) by ac_rfl]
    simp
  cases a.msb <;> cases b.msb <;> simp [BitVec.shiftLeft_xor_distrib, hcancel] <;> ac_rfl

/-- `n` rounds are linear over XOR. -/
theorem crcRounds_xor (n : Nat) (a b : Word) :
    crcRounds n (a ^^^ b) = crcRounds n a ^^^ crcRounds n b := by
  induction n generalizing a b with
  | zero => rfl
  | succ n ih => rw [crcRounds_succ, crcRound_xor, ih, crcRounds_succ, crcRounds_succ]

/-- Absorbing the high byte of an accumulator clears it there (R67). -/
theorem absorb_highByte (a : Word) : absorb a (highByte a) = (lowByte a).setWidth 16 := by
  apply BitVec.eq_of_getLsbD_eq
  intro i hi
  simp only [absorb, highByte, lowByte, BitVec.getLsbD_xor, BitVec.getLsbD_shiftLeft, BitVec.getLsbD_setWidth,
    BitVec.getLsbD_extractLsb']
  by_cases h : i < 8
  · simp [h, hi]
  · have h8 : i - 8 < 8 := by omega
    simp [h, hi, h8, show i - 8 < 16 by omega, show 8 + (i - 8) = i by omega]

end Sys2Proof.Machine
end

