-- ==== Sys2Proof/Laws/State.lean ====
section
/-! SUPPORT. What each state update leaves in each field. -/

namespace Sys2Proof.Machine

variable (s : State) (r : Result) (e : Event) (b c : List Byte) (p : List Input)

@[simp] theorem State.respond_buf : (s.respond r e).buf = s.buf := rfl
@[simp] theorem State.respond_cfg : (s.respond r e).cfg = s.cfg := rfl
@[simp] theorem State.respond_port : (s.respond r e).port = s.port := rfl
@[simp] theorem State.respond_out : (s.respond r e).out = s.out ++ [⟨r, e⟩] := rfl

@[simp] theorem State.answer_buf : (s.answer r).buf = s.buf := rfl
@[simp] theorem State.answer_cfg : (s.answer r).cfg = s.cfg := rfl
@[simp] theorem State.answer_port : (s.answer r).port = s.port := rfl
@[simp] theorem State.answer_out : (s.answer r).out = s.out ++ [⟨r, .none⟩] := rfl

@[simp] theorem State.raise_buf : (s.raise e).buf = s.buf := rfl
@[simp] theorem State.raise_cfg : (s.raise e).cfg = s.cfg := rfl
@[simp] theorem State.raise_port : (s.raise e).port = s.port := rfl
@[simp] theorem State.raise_out : (s.raise e).out = s.out ++ [⟨.nothing, e⟩] := rfl

@[simp] theorem State.setBuf_buf : (s.setBuf b).buf = b := rfl
@[simp] theorem State.setBuf_cfg : (s.setBuf b).cfg = s.cfg := rfl
@[simp] theorem State.setBuf_port : (s.setBuf b).port = s.port := rfl
@[simp] theorem State.setBuf_out : (s.setBuf b).out = s.out := rfl

@[simp] theorem State.appendBuf_buf : (s.appendBuf c).buf = s.buf ++ c := rfl
@[simp] theorem State.appendBuf_cfg : (s.appendBuf c).cfg = s.cfg := rfl
@[simp] theorem State.appendBuf_port : (s.appendBuf c).port = s.port := rfl
@[simp] theorem State.appendBuf_out : (s.appendBuf c).out = s.out := rfl

@[simp] theorem State.clearBuf_buf : s.clearBuf.buf = [] := rfl
@[simp] theorem State.clearBuf_cfg : s.clearBuf.cfg = s.cfg := rfl
@[simp] theorem State.clearBuf_port : s.clearBuf.port = s.port := rfl
@[simp] theorem State.clearBuf_out : s.clearBuf.out = s.out := rfl

@[simp] theorem State.setPort_buf : (s.setPort p).buf = s.buf := rfl
@[simp] theorem State.setPort_cfg : (s.setPort p).cfg = s.cfg := rfl
@[simp] theorem State.setPort_port : (s.setPort p).port = p := rfl
@[simp] theorem State.setPort_out : (s.setPort p).out = s.out := rfl

@[simp] theorem State.applyReset_buf : s.applyReset.buf = [] := rfl
@[simp] theorem State.applyReset_cfg : s.applyReset.cfg = s.cfg := rfl
@[simp] theorem State.applyReset_port : s.applyReset.port = s.port := rfl
@[simp] theorem State.applyReset_out : s.applyReset.out = s.out := rfl

@[simp] theorem State.resetWith_buf (c : Config) : (State.resetWith c).buf = [] := rfl
@[simp] theorem State.resetWith_cfg (c : Config) : (State.resetWith c).cfg = c := rfl
@[simp] theorem State.resetWith_port (c : Config) : (State.resetWith c).port = [] := rfl
@[simp] theorem State.resetWith_out (c : Config) : (State.resetWith c).out = [] := rfl

end Sys2Proof.Machine
end

