-- ==== Sys2Proof/Laws/Ops.lean ====
section
/-! SUPPORT. What the shared operations on outcomes can do. -/

namespace Sys2Proof.Machine

@[simp] theorem andThen_next (s : State) (k : State → StepOutcome) : andThen (.next s) k = k s := rfl

@[simp] theorem andThen_fault (f : Fault) (k : State → StepOutcome) : andThen (.fault f) k = .fault f := rfl

@[simp] theorem andThen_refused (r : Refusal) (k : State → StepOutcome) : andThen (.refused r) k = .refused r := rfl

/-- A sequence answers next only through a next state of its first part. -/
theorem andThen_eq_next {o : StepOutcome} {k : State → StepOutcome} {t : State} :
    andThen o k = .next t ↔ ∃ s, o = .next s ∧ k s = .next t := by
  cases o <;> simp

@[simp] theorem resume_next (s : State) : resume (.next s) = .next s := rfl

@[simp] theorem resume_overflow (s : State) : resume (.fault (.bufferOverflow s)) = .next s := rfl

@[simp] theorem resume_refused (r : Refusal) : resume (.refused r) = .refused r := rfl

/-- Going on reaches `t` from a next state `t`, or from the overflow fault that carries `t`. -/
theorem resume_eq_next {o : StepOutcome} {t : State} :
    resume o = .next t ↔ o = .next t ∨ o = .fault (.bufferOverflow t) := by
  cases o with
  | next s => simp
  | fault f => cases f; simp
  | refused r => simp

end Sys2Proof.Machine
end

