-- ==== Sys2Proof/Laws/Codec.lean ====
section
/-! SUPPORT. What the frame codec answers. -/

namespace Sys2Proof.Machine

/-- The CRC a frame must carry does not depend on the CRC it carries. -/
@[simp] theorem frameCrc_ofFields (id : Ident) (fb addr : Byte) (v c : Word) :
    frameCrc (Frame.ofFields id fb addr v c)
      = crc16 [id.b0, id.b1, id.b2, id.b3, fb, addr, highByte v, lowByte v] codecCrcInit := rfl

theorem crcOk_iff (f : Frame) : crcOk f = true ↔ frameCrc f = f.crc := by simp [crcOk]

/-- `ENCODE` stores exactly the CRC that `DECODE` recomputes (R75). -/
theorem crcOk_buildFrame (id : Ident) (fb addr : Byte) (v : Word) : crcOk (buildFrame id fb addr v) = true := by
  simp [crcOk_iff, buildFrame]

/-- The three answers of R72 and when each is given. -/
theorem frameVerdict_cases (f : Frame) :
    (crcOk f = false ∧ frameVerdict f = ⟨.nothing, .checksumMismatch⟩) ∨
    (crcOk f = true ∧ FunctionCode.ofByte? f.function = none ∧ frameVerdict f = ⟨.nothing, .unknownFunction⟩) ∨
    (∃ fc, crcOk f = true ∧ FunctionCode.ofByte? f.function = some fc ∧
      frameVerdict f = ⟨.decoded fc f.address f.value, .none⟩) := by
  cases hc : crcOk f with
  | false => exact .inl ⟨rfl, by simp [frameVerdict, hc]⟩
  | true =>
    cases hf : FunctionCode.ofByte? f.function with
    | none => exact .inr (.inl ⟨rfl, rfl, by simp [frameVerdict, hc, hf]⟩)
    | some fc => exact .inr (.inr ⟨fc, rfl, rfl, by simp [frameVerdict, hc, hf]⟩)

/-- A frame of a known kind is judged as `DECODE` judges its bytes. -/
theorem answerKnownFrame_eq (fc : FunctionCode) (id : Ident) (addr : Byte) (v c : Word) (s : State) :
    answerKnownFrame fc id addr v c s
      = s.respond (frameVerdict (Frame.ofFields id fc.toByte addr v c)).result
          (frameVerdict (Frame.ofFields id fc.toByte addr v c)).event := by
  unfold answerKnownFrame frameVerdict
  split
  · simp [State.answer]
  · simp [State.raise]

/-- `ENCODE` with the byte of a function code completes. -/
theorem execEncode_known (fc : FunctionCode) (id : Ident) (addr : Byte) (v : Word) (s : State) :
    execEncode id fc.toByte addr v s = .next (s.answer (.frame (buildFrame id fc.toByte addr v))) := by
  simp [execEncode]

/-- `ENCODE` with any other byte is refused by name. -/
theorem execEncode_unknown {fn : Byte} (h : FunctionCode.ofByte? fn = none) (id : Ident) (addr : Byte) (v : Word)
    (s : State) : execEncode id fn addr v s = .refused (.illFormed .functionByte) := by
  simp [execEncode, h]

/-- `ENCODE` reaches a next state only with a known function byte, and then answers the frame it built. -/
theorem execEncode_eq_next {id : Ident} {fn addr : Byte} {v : Word} {s t : State}
    (h : execEncode id fn addr v s = .next t) :
    ∃ fc : FunctionCode, fn = fc.toByte ∧ t = s.answer (.frame (buildFrame id fc.toByte addr v)) := by
  cases hf : FunctionCode.ofByte? fn with
  | none => simp [execEncode_unknown hf] at h
  | some fc =>
    obtain rfl := FunctionCode.ofByte?_eq_some.1 hf
    rw [execEncode_known] at h
    exact ⟨fc, rfl, by simpa using h.symm⟩

end Sys2Proof.Machine
end

