-- ==== Sys2Proof/Laws/PerInstr.lean ====
section
/-! SUPPORT. One law of the syntax for each instruction: the transaction that spells it is well formed exactly when
the instruction is (R53). -/

namespace Sys2Proof.Laws.SpelledWellFormed

/-- The encoder neither makes an instruction well formed nor spoils it. -/
def Statement (i : Instr) : Prop := (encode i).wf = i.wf

theorem inquire (id : Ident) (addr : Byte) (value crc : Word) : Statement (.inquire id addr value crc) := rfl

theorem modify (id : Ident) (addr : Byte) (value crc : Word) : Statement (.modify id addr value crc) := rfl

theorem commitFlash (id : Ident) (addr : Byte) (value crc : Word) : Statement (.commitFlash id addr value crc) := rfl

theorem crc16 (init : Word) (data : List Byte) : Statement (.crc16 init data) := by
  simp [Statement, encode, Packet.wf, commandWf, Instr.wf]

theorem encode (id : Ident) (fn addr : Byte) (value : Word) : Statement (.encode id fn addr value) := by
  simp [Statement, Sys2Proof.encode, Packet.wf, commandWf, Instr.wf, Ident.toBytes]

theorem decode (frame : Frame) : Statement (.decode frame) := rfl

theorem feed (chunk : List Byte) : Statement (.feed chunk) := rfl

theorem drain : Statement .drain := rfl

theorem rmux (addr : Byte) : Statement (.rmux addr) := rfl

end Sys2Proof.Laws.SpelledWellFormed
end

