-- ==== Sys2Proof/Laws/Reassembler.lean ====
section
/-! SUPPORT. The alignment classes, the cutting loop, and what `FEED` and `DRAIN` answer. -/

namespace Sys2Proof.Machine

theorem alignmentOf_aligned (n : Nat) : alignmentOf n = .aligned ↔ n % 10 = 0 := by
  unfold alignmentOf
  split
  · split <;> simp_all
  · simp_all

theorem alignmentOf_odd (n : Nat) : alignmentOf n = .oddMisaligned ↔ n % 2 = 1 := by
  unfold alignmentOf
  split
  · split <;> simp_all
  · simp; omega

theorem alignmentOf_even (n : Nat) : alignmentOf n = .evenMisaligned ↔ n % 2 = 0 ∧ n % 10 ≠ 0 := by
  unfold alignmentOf
  split
  · split
    · simp; omega
    · simp; omega
  · simp; omega

/-- Frames cut and bytes left are together the bytes there were, in order. -/
theorem cutFrames_append_cutRest (bs : List Byte) :
    (cutFrames bs).flatMap Frame.toBytes ++ cutRest bs = bs := by
  induction bs using cutFrames.induct with
  | case1 b0 b1 b2 b3 fb ad vh vl ch cl rest ih =>
    simp only [cutFrames, cutRest, List.flatMap_cons, List.append_assoc, ih]
    rfl
  | case2 bs h =>
    have h1 : cutFrames bs = [] := by
      unfold cutFrames
      split
      · exact (h _ _ _ _ _ _ _ _ _ _ _ rfl).elim
      · rfl
    have h2 : cutRest bs = bs := by
      unfold cutRest
      split
      · exact (h _ _ _ _ _ _ _ _ _ _ _ rfl).elim
      · rfl
    simp [h1, h2]

/-- The loop runs `LEN / 10` times (R86). -/
theorem cutFrames_length (bs : List Byte) : (cutFrames bs).length = bs.length / 10 := by
  induction bs using cutFrames.induct with
  | case1 b0 b1 b2 b3 fb ad vh vl ch cl rest ih =>
    simp only [cutFrames, List.length_cons, ih]
    omega
  | case2 bs h =>
    have hlt : bs.length < 10 := by
      rcases bs with _ | ⟨_, _ | ⟨_, _ | ⟨_, _ | ⟨_, _ | ⟨_, _ | ⟨_, _ | ⟨_, _ | ⟨_, _ | ⟨_, _ | ⟨_, _⟩⟩⟩⟩⟩⟩⟩⟩⟩⟩ <;>
        first
        | exact (h _ _ _ _ _ _ _ _ _ _ _ rfl).elim
        | simp
    have h1 : cutFrames bs = [] := by
      unfold cutFrames
      split
      · exact (h _ _ _ _ _ _ _ _ _ _ _ rfl).elim
      · rfl
    simp [h1, Nat.div_eq_of_lt hlt]

/-- Fewer than ten bytes are left, as many as the length asks. -/
theorem cutRest_length (bs : List Byte) : (cutRest bs).length = bs.length % 10 := by
  have h := congrArg List.length (cutFrames_append_cutRest bs)
  rw [List.length_append, List.length_flatMap] at h
  have hs : ((cutFrames bs).map fun f => f.toBytes.length).sum = 10 * (cutFrames bs).length := by
    simp [Frame.toBytes_length, Nat.mul_comm]
  rw [hs, cutFrames_length] at h
  omega

/-- No byte is left of an aligned buffer (R86). -/
theorem cutRest_aligned {bs : List Byte} (h : bs.length % 10 = 0) : cutRest bs = [] :=
  List.length_eq_zero_iff.1 (by rw [cutRest_length, h])

/-- The frames of an aligned buffer hold its bytes and no others, in order. -/
theorem cutFrames_aligned {bs : List Byte} (h : bs.length % 10 = 0) :
    (cutFrames bs).flatMap Frame.toBytes = bs := by
  simpa [cutRest_aligned h] using cutFrames_append_cutRest bs

theorem fits_iff (s : State) (n : Nat) : s.fits n = true ↔ ∀ cap ∈ s.cfg.bufCap, s.buf.length + n ≤ cap := by
  unfold State.fits State.len
  cases s.cfg.bufCap <;> simp

/-- What fits, fits in part. -/
theorem fits_mono {s : State} {m n : Nat} (h : s.fits n = true) (hmn : m ≤ n) : s.fits m = true := by
  rw [fits_iff] at *
  intro cap hc
  have := h cap hc
  omega

/-- After `m` bytes more, what fitted with them still fits. -/
theorem fits_after {s t : State} {m n : Nat} (hc : t.cfg = s.cfg) (hb : t.buf.length = s.buf.length + m)
    (h : s.fits (m + n) = true) : t.fits n = true := by
  rw [fits_iff] at *
  intro cap hcap
  rw [hc] at hcap
  have := h cap hcap
  omega

/-- `FEED` appends, or faults with BUF as it was (R80, R81). -/
theorem execFeed_cases (chunk : List Byte) (s : State) :
    (s.fits chunk.length = true ∧ execFeed chunk s = .next ((s.appendBuf chunk).answer .nothing)) ∨
    (s.fits chunk.length = false ∧
      execFeed chunk s = .fault (.bufferOverflow (s.raise .bufferOverflow))) := by
  cases h : s.fits chunk.length with
  | true => exact .inl ⟨rfl, by simp [execFeed, h]⟩
  | false => exact .inr ⟨rfl, by simp [execFeed, h]⟩

/-- A chunk that fits is appended. -/
theorem execFeed_fits {chunk : List Byte} {s : State} (h : s.fits chunk.length = true) :
    execFeed chunk s = .next ((s.appendBuf chunk).answer .nothing) := by simp [execFeed, h]

/-- The three cases of `DRAIN` (R84). -/
theorem execDrain_cases (s : State) :
    (s.buf.length % 10 = 0 ∧
      execDrain s = .next (s.clearBuf.answer (.frames (cutFrames s.buf)))) ∨
    (s.buf.length % 2 = 1 ∧
      execDrain s = .next (s.clearBuf.respond (.frames []) .frameMisalignment)) ∨
    (s.buf.length % 2 = 0 ∧ s.buf.length % 10 ≠ 0 ∧ execDrain s = .next (s.answer (.frames []))) := by
  cases h : alignmentOf s.len with
  | aligned =>
    have h' := (alignmentOf_aligned _).1 h
    exact .inl ⟨h', by simp [execDrain, h, cutRest_aligned h', State.clearBuf]⟩
  | oddMisaligned => exact .inr (.inl ⟨(alignmentOf_odd _).1 h, by simp [execDrain, h]⟩)
  | evenMisaligned =>
    have h' := (alignmentOf_even _).1 h
    exact .inr (.inr ⟨h'.1, h'.2, by simp [execDrain, h]⟩)

/-- An aligned buffer is cut whole. -/
theorem execDrain_aligned {s : State} (h : s.buf.length % 10 = 0) :
    execDrain s = .next (s.clearBuf.answer (.frames (cutFrames s.buf))) := by
  rcases execDrain_cases s with ⟨_, e⟩ | ⟨h', _⟩ | ⟨_, h', _⟩
  · exact e
  · omega
  · omega

/-- An odd length is discarded. -/
theorem execDrain_odd {s : State} (h : s.buf.length % 2 = 1) :
    execDrain s = .next (s.clearBuf.respond (.frames []) .frameMisalignment) := by
  rcases execDrain_cases s with ⟨h', _⟩ | ⟨_, e⟩ | ⟨h', _, _⟩
  · omega
  · exact e
  · omega

/-- An even length that is no multiple of ten is kept. -/
theorem execDrain_even {s : State} (h : s.buf.length % 2 = 0) (h10 : s.buf.length % 10 ≠ 0) :
    execDrain s = .next (s.answer (.frames [])) := by
  rcases execDrain_cases s with ⟨h', _⟩ | ⟨h', _⟩ | ⟨_, _, e⟩
  · omega
  · omega
  · exact e

end Sys2Proof.Machine
end

