-- ==== Sys2Proof/Laws/RegisterMap.lean ====
section
/-! SUPPORT. What the host's Register Map holds after an update, and what a notification routes to it. -/

namespace Sys2Proof.Machine

/-- The four readings of a number in one formula (R101, R102). -/
theorem Scale.read_eq (c : Scale) (v : Word) : c.read v
    = (if c.signedField then (asSigned16 v : Rat) else (v.toNat : Rat)) / (if c.tenthsScaled then 10 else 1) := by
  rcases c with ⟨_ | _, _ | _⟩ <;> simp [Scale.read, tenths, tenthsSigned]

@[simp] theorem LinTable.setPoint_count (t : LinTable) (kind : PointKind) (k : Nat) (v : Rat) :
    (t.setPoint kind k v).count = t.count := by cases kind <;> rfl

theorem LinTable.setPoint_real (t : LinTable) {k : Nat} (hk : k < 30) (v : Rat) :
    (t.setPoint .real k v).real[k]? = some v := by simp [LinTable.setPoint, hk]

theorem LinTable.setPoint_line (t : LinTable) {k : Nat} (hk : k < 30) (v : Rat) :
    (t.setPoint .line k v).line[k]? = some v := by simp [LinTable.setPoint, hk]

theorem LinTable.setPoint_real_other (t : LinTable) {k j : Nat} (h : j ≠ k) (v : Rat) :
    (t.setPoint .real k v).real[j]? = t.real[j]? := by
  simp [LinTable.setPoint, h.symm]

theorem LinTable.setPoint_line_other (t : LinTable) {k j : Nat} (h : j ≠ k) (v : Rat) :
    (t.setPoint .line k v).line[j]? = t.line[j]? := by
  simp [LinTable.setPoint, h.symm]

@[simp] theorem LinTable.setPoint_real_line (t : LinTable) (k : Nat) (v : Rat) :
    (t.setPoint .real k v).line = t.line := rfl

@[simp] theorem LinTable.setPoint_line_real (t : LinTable) (k : Nat) (v : Rat) :
    (t.setPoint .line k v).real = t.real := rfl

@[simp] theorem LinTable.setCount_count (t : LinTable) (n : Nat) (h : 1 ≤ n ∧ n ≤ 30) :
    (t.setCount n h).count = n := rfl

@[simp] theorem LinTable.setCount_real (t : LinTable) (n : Nat) (h : 1 ≤ n ∧ n ≤ 30) :
    (t.setCount n h).real = clearFrom n t.real := rfl

@[simp] theorem LinTable.setCount_line (t : LinTable) (n : Nat) (h : 1 ≤ n ∧ n ≤ 30) :
    (t.setCount n h).line = clearFrom n t.line := rfl

theorem clearFrom_below (points : Vector Rat 30) {n k : Nat} (hk : k < n) :
    (clearFrom n points)[k]? = points[k]? := by simp [clearFrom, hk]

theorem clearFrom_from (points : Vector Rat 30) {n k : Nat} (hk : n ≤ k) (hl : k < 30) :
    (clearFrom n points)[k]? = some 0 := by simp [clearFrom, Nat.not_lt.2 hk, hl]

theorem LinTable.point?_past_count (t : LinTable) (kind : PointKind) {k : Nat} (hk : t.count ≤ k) (hl : k < 30) :
    t.point? kind k = some 0 := by cases kind <;> simp [LinTable.point?, Nat.not_lt.2 hk, hl]

@[simp] theorem RegisterMap.setField_table (m : RegisterMap) (r : RangeName) (k : Nat) (v : FieldValue) :
    (m.setField r k v).table = m.table := rfl

/-- A learnt field reads back. -/
@[simp] theorem RegisterMap.field?_setField_same (m : RegisterMap) (r : RangeName) (k : Nat) (v : FieldValue) :
    (m.setField r k v).field? r k = some v := by
  simp [RegisterMap.setField, RegisterMap.field?, KnownField.is]

/-- Learning a field leaves every other field as it was. -/
theorem RegisterMap.field?_setField_other (m : RegisterMap) {r q : RangeName} {k j : Nat} (v : FieldValue)
    (h : ¬ (r = q ∧ k = j)) : (m.setField r k v).field? q j = m.field? q j := by
  have hne : ∀ e : KnownField, e.is q j = true → e.is r k = false := by
    intro e he
    simp only [KnownField.is, Bool.and_eq_true, beq_iff_eq] at he
    simp only [KnownField.is, Bool.and_eq_false_iff, beq_eq_false_iff_ne]
    by_contra hc
    push Not at hc
    exact h ⟨hc.1.symm.trans he.1, hc.2.symm.trans he.2⟩
  have hself : KnownField.is ⟨r, k, v⟩ q j = false := by
    cases hb : KnownField.is ⟨r, k, v⟩ q j
    · rfl
    · simpa [KnownField.is] using hne _ hb
  simp only [RegisterMap.setField, RegisterMap.field?, List.find?_cons, hself, List.find?_filter]
  congr 2
  funext e
  cases hq : e.is q j
  · simp
  · simp [hne e hq]

/-- A group that is not known to be on has no threshold to read (R110). -/
theorem RegisterMap.threshold?_of_off (l : HostLayout) (m : RegisterMap) (g : ToggleName)
    (k : Fin g.range.length) (h : m.isOn l g = false) : m.threshold? l g k = none := by
  simp [RegisterMap.threshold?, h]

/-- A threshold of a group that is on reads as the map's field (R110). -/
theorem RegisterMap.threshold?_of_on (l : HostLayout) (m : RegisterMap) (g : ToggleName) {k : Fin g.range.length}
    (h : m.isOn l g = true) (hk : k ∈ (l.toggle g).thresholds.toList) :
    m.threshold? l g k = m.field? g.range k := by
  simp [RegisterMap.threshold?, h, hk]

@[simp] theorem RegisterMap.isOn_apply_toggle (l : HostLayout) (m : RegisterMap) (g : ToggleName) (on : Bool) :
    (m.apply l (.toggleUpdated g on)).isOn l g = on := by
  cases on <;> simp [RegisterMap.isOn, RegisterMap.apply]

theorem Session.route_closed (x : Session) (l : HostLayout) (b : RangeBase) (rs : List Response)
    (h : x.phase = .closed) : x.route l b rs = (x, []) := by simp [Session.route, h]

/-- Answers that give no update leave the session as it was: the map stays last-known-good (R111). -/
theorem Session.route_nothing (x : Session) (l : HostLayout) (b : RangeBase) (rs : List Response)
    (h : rs.filterMap (Response.update? l b) = []) : x.route l b rs = (x, []) := by
  rcases x with ⟨phase, id, map⟩
  cases phase <;> simp [Session.route, h]

/-- Answers that give one update publish it and apply it (R119). -/
theorem Session.route_one (x : Session) (l : HostLayout) (b : RangeBase) (rs : List Response) (u : SemanticUpdate)
    (hx : x.phase = .opened) (h : rs.filterMap (Response.update? l b) = [u]) :
    x.route l b rs = ({ x with map := x.map.apply l u }, [u]) := by simp [Session.route, hx, h]

/-- The shape of every notification's end: what the block did, and what was routed of its answers. -/
theorem Session.onBytesAvailable_next (x : Session) (l : HostLayout) (drainNow : Bool) (bytes : List Byte)
    {s t : State} (h : takeBytes drainNow bytes s = .next t) :
    x.onBytesAvailable l drainNow bytes s
      = .next ⟨t, (x.route l s.cfg.rangeBase (newResponses s t)).1,
          (x.route l s.cfg.rangeBase (newResponses s t)).2⟩ := by
  simp [Session.onBytesAvailable, h]

end Sys2Proof.Machine
end

