-- ==== Sys2Proof/Laws/Regmux.lean ====
section
/-! SUPPORT. What the register-address multiplexer selects. -/

namespace Sys2Proof

theorem RangeName.mem_all (r : RangeName) : r ∈ RangeName.all := by cases r <;> decide

theorem RangeName.length_pos (r : RangeName) : 0 < r.length := by cases r <;> decide

theorem RangeName.length_le (r : RangeName) : r.length ≤ 30 := by cases r <;> decide

/-- The default table is one the block may be instantiated with (R34). -/
theorem RangeBase.listingOrder_legal : RangeBase.listingOrder.Legal := by decide

theorem Config.default_legal : Config.default.Legal := by decide

namespace Machine

/-- The test of R93 in terms of a range's bounds. -/
theorem inRange_iff (b : RangeBase) (addr : Byte) (r : RangeName) :
    inRange b addr r = true ↔ b.first r ≤ addr.toNat ∧ addr.toNat < b.past r := by
  have := r.length_pos
  simp only [inRange, RangeBase.past, RangeBase.first, Bool.and_eq_true, decide_eq_true_eq]
  omega

/-- What the loop of R93 answers: a range of the list that holds the address, or `(NONE, 0)` if none does. -/
theorem selectRange_cases (b : RangeBase) (addr : Byte) (l : List RangeName) :
    (∃ r ∈ l, inRange b addr r = true ∧ selectRange b addr l = (some r, addr.toNat - b.first r)) ∨
    ((∀ r ∈ l, inRange b addr r = false) ∧ selectRange b addr l = (none, 0)) := by
  induction l with
  | nil => exact .inr ⟨by simp, rfl⟩
  | cons r rest ih =>
    cases h : inRange b addr r with
    | true => exact .inl ⟨r, by simp, h, by simp [selectRange, h, RangeBase.first]⟩
    | false =>
      rcases ih with ⟨q, hq, hin, e⟩ | ⟨hn, e⟩
      · exact .inl ⟨q, by simp [hq], hin, by simp [selectRange, h, e]⟩
      · exact .inr ⟨by simpa [h] using hn, by simp [selectRange, h, e]⟩

/-- Under disjoint ranges an address lies in at most one (R94). -/
theorem inRange_unique {b : RangeBase} (hd : b.Disjoint) {addr : Byte} {r q : RangeName}
    (hr : inRange b addr r = true) (hq : inRange b addr q = true) : r = q := by
  by_contra hne
  rw [inRange_iff] at hr hq
  have := hd r r.mem_all q q.mem_all hne
  omega

end Machine

end Sys2Proof
end

