-- ==== Sys2Proof/Laws/Step.lean ====
section
/-! SUPPORT. What one instruction, and one step, can do. -/

namespace Sys2Proof.Machine

/-- An instruction that reaches a next state delivers one response and writes BUF at most; only the reassembler's
operations write it. -/
theorem exec_next_shape {i : Instr} {s t : State} (h : exec i s = .next t) :
    ∃ (b : List Byte) (r : Result) (e : Event), t = (s.setBuf b).respond r e ∧ (touchesBuf i = false → b = s.buf) := by
  cases i with
  | inquire id a v c =>
    obtain rfl : answerKnownFrame .inquire id a v c s = t := by simpa [exec, execInquire] using h
    exact ⟨s.buf, _, _, answerKnownFrame_eq .inquire id a v c s, fun _ => rfl⟩
  | modify id a v c =>
    obtain rfl : answerKnownFrame .modify id a v c s = t := by simpa [exec, execModify] using h
    exact ⟨s.buf, _, _, answerKnownFrame_eq .modify id a v c s, fun _ => rfl⟩
  | commitFlash id a v c =>
    obtain rfl : answerKnownFrame .commitFlash id a v c s = t := by simpa [exec, execCommitFlash] using h
    exact ⟨s.buf, _, _, answerKnownFrame_eq .commitFlash id a v c s, fun _ => rfl⟩
  | crc16 init data => exact ⟨s.buf, _, _, (Host.Outcome.next.inj h).symm, fun _ => rfl⟩
  | encode id fn a v =>
    obtain ⟨fc, _, ht⟩ := execEncode_eq_next (show execEncode id fn a v s = .next t from h)
    exact ⟨s.buf, _, _, ht, fun _ => rfl⟩
  | decode f => exact ⟨s.buf, _, _, (Host.Outcome.next.inj h).symm, fun _ => rfl⟩
  | feed chunk =>
    rcases execFeed_cases chunk s with ⟨_, e⟩ | ⟨_, e⟩
    · rw [exec, e] at h
      exact ⟨_, _, _, (Host.Outcome.next.inj h).symm, fun h' => by simp [touchesBuf] at h'⟩
    · rw [exec, e] at h
      simp at h
  | drain =>
    rcases execDrain_cases s with ⟨_, e⟩ | ⟨_, e⟩ | ⟨_, _, e⟩ <;> rw [exec, e] at h
    · exact ⟨_, _, _, (Host.Outcome.next.inj h).symm, fun h' => by simp [touchesBuf] at h'⟩
    · exact ⟨_, _, _, (Host.Outcome.next.inj h).symm, fun h' => by simp [touchesBuf] at h'⟩
    · exact ⟨s.buf, _, _, (Host.Outcome.next.inj h).symm, fun _ => rfl⟩
  | rmux a => exact ⟨s.buf, _, _, (Host.Outcome.next.inj h).symm, fun _ => rfl⟩

/-- Only a `FEED` whose chunk does not fit faults, and the fault carries BUF as it was. -/
theorem exec_fault_shape {i : Instr} {s : State} {f : Fault} (h : exec i s = .fault f) :
    ∃ chunk, i = .feed chunk ∧ s.fits chunk.length = false ∧ f = .bufferOverflow (s.raise .bufferOverflow) := by
  cases i with
  | feed chunk =>
    rcases execFeed_cases chunk s with ⟨_, e⟩ | ⟨hf, e⟩
    · rw [exec, e] at h; simp at h
    · rw [exec, e] at h
      exact ⟨chunk, rfl, hf, by simpa using h.symm⟩
  | drain =>
    rcases execDrain_cases s with ⟨_, e⟩ | ⟨_, e⟩ | ⟨_, _, e⟩ <;> rw [exec, e] at h <;> simp at h
  | encode id fn a v =>
    simp only [exec, execEncode] at h
    split at h <;> simp at h
  | inquire id a v c => simp [exec, execInquire] at h
  | modify id a v c => simp [exec, execModify] at h
  | commitFlash id a v c => simp [exec, execCommitFlash] at h
  | crc16 init data => simp [exec, execCrc16] at h
  | decode g => simp [exec, execDecode] at h
  | rmux a => simp [exec, execRmux] at h

/-- The three things a step can do. -/
theorem step_cases (s : State) :
    (s.port = [] ∧ step s = .next s) ∨
    (∃ rest, s.port = .reset :: rest ∧ step s = .next (s.setPort rest).applyReset) ∨
    (∃ p rest, s.port = .packet p :: rest ∧ step s = runPacket p (s.setPort rest)) := by
  cases h : s.port with
  | nil => exact .inl ⟨rfl, by simp [step, h]⟩
  | cons x rest =>
    cases x with
    | reset => exact .inr (.inl ⟨rest, rfl, by simp [step, h]⟩)
    | packet p => exact .inr (.inr ⟨p, rest, rfl, by simp [step, h]⟩)

@[simp] theorem runProgram_nil (s : State) : runProgram [] s = .next s := rfl

@[simp] theorem runProgram_cons (i : Instr) (rest : List Instr) (s : State) :
    runProgram (i :: rest) s = andThen (exec i s) (runProgram rest) := rfl

@[simp] theorem runResuming_nil (s : State) : runResuming [] s = .next s := rfl

@[simp] theorem runResuming_cons (i : Instr) (rest : List Instr) (s : State) :
    runResuming (i :: rest) s = andThen (resume (exec i s)) (runResuming rest) := rfl

end Sys2Proof.Machine
end

