-- ==== Sys2Proof/Machine/Text.lean ====
section
/-! DEFINITION. The text form of commands and responses (R58). It has no effect on behaviour (D6). Where R58 leaves a
choice (decimal or hexadecimal numbers), this is the spec's own usage in spec/95_test_vectors.md. -/

namespace Sys2Proof.Machine

/-- One hexadecimal digit, as the listings write it. -/
def hexDigit (n : Nat) : Char := (n % 16).digitChar.toUpper

/-- A byte as two hexadecimal digits. -/
def hexByte (b : Byte) : String := String.ofList [hexDigit (b.toNat / 16), hexDigit b.toNat]

/-- A word as `0x` and four hexadecimal digits. -/
def hexWord (w : Word) : String := "0x" ++ hexByte (highByte w) ++ hexByte (lowByte w)

/-- `<bytes>`: two-digit bytes separated by spaces, `[]` for none. -/
def textBytes : List Byte → String
  | [] => "[]"
  | bytes => String.intercalate " " (bytes.map hexByte)

/-- `<fn>` of a function code. -/
def textFunction : FunctionCode → String
  | .inquire => "INQUIRE"
  | .modify => "MODIFY"
  | .commitFlash => "COMMITFLASH"

/-- `<fn>` of a command: the name, or the byte when it has none. -/
def textFunctionByte (fn : Byte) : String :=
  match FunctionCode.ofByte? fn with
  | some fc => textFunction fc
  | none => toString fn.toNat

/-- A range name as R33 spells it, or `NONE`. -/
def textSelect : Option RangeName → String
  | none => "NONE"
  | some .linReal => "LIN_REAL"
  | some .linCorr => "LIN_CORR"
  | some .segCount => "SEG_COUNT"
  | some .adCal => "AD_CAL"
  | some .tempRange => "TEMP_RANGE"
  | some .vdacCal => "VDAC_CAL"
  | some .emissivity => "EMISSIVITY"
  | some .curCal => "CUR_CAL"
  | some .peakHold => "PEAK_HOLD"
  | some .lowAlarm => "LOW_ALARM"
  | some .highAlarm => "HIGH_ALARM"
  | some .respTime => "RESP_TIME"
  | some .devId => "DEV_ID"
  | some .password => "PASSWORD"

/-- An event by its name in R125. -/
def textEvent : Event → String
  | .none => "None"
  | .checksumMismatch => "ChecksumMismatch"
  | .frameMisalignment => "FrameMisalignment"
  | .unknownFunction => "UnknownFunction"
  | .bufferOverflow => "BufferOverflow"

/-- One command of R58. A wire frame is written as its ten bytes under the name of its row. -/
def textInstr : Instr → String
  | .inquire id addr value crc => "INQUIRE " ++ textBytes (Frame.ofFields id 3 addr value crc).toBytes
  | .modify id addr value crc => "MODIFY " ++ textBytes (Frame.ofFields id 6 addr value crc).toBytes
  | .commitFlash id addr value crc => "COMMITFLASH " ++ textBytes (Frame.ofFields id 255 addr value crc).toBytes
  | .crc16 init data => "CRC16 " ++ hexWord init ++ ", " ++ textBytes data
  | .encode id fn addr value =>
    "ENCODE " ++ textBytes id.toBytes ++ ", " ++ textFunctionByte fn ++ ", " ++ toString addr.toNat ++ ", "
      ++ toString value.toNat
  | .decode f => "DECODE " ++ textBytes f.toBytes
  | .feed chunk => "FEED " ++ textBytes chunk
  | .drain => "DRAIN"
  | .rmux addr => "RMUX " ++ toString addr.toNat

/-- The result fields of a response. -/
def textResult : Result → String
  | .nothing => "(nothing)"
  | .crc c => "crc=" ++ hexWord c
  | .frame f => "frame=" ++ textBytes f.toBytes
  | .decoded fn addr value =>
    "fn=" ++ textFunction fn ++ " addr=" ++ toString addr.toNat ++ " value=" ++ toString value.toNat
  | .frames fs => "frames=[" ++ String.intercalate "; " (fs.map fun f => textBytes f.toBytes) ++ "]"
  | .selected sel index => "sel=" ++ textSelect sel ++ " index=" ++ toString index

/-- A response of R58: the event stands in place of the result when there is one. -/
def textResponse (r : Response) : String :=
  match r.event with
  | .none => "=> " ++ textResult r.result
  | e => "=> event=" ++ textEvent e

end Sys2Proof.Machine
end

