-- ==== Sys2Proof/Tests/Slice0.lean ====
section
/-! SUPPORT. Tests of the model. Expected values come from spec/95_test_vectors.md (its vector is named at each test)
or are written out from the encodings of spec/30_encoding.md; the last part shows, for every obligation with
hypotheses, data that meet all of them. -/

namespace Sys2Proof.Tests

open Sys2Proof.Machine

/-- A block with this BUF, unbounded and with the default table. -/
def holding (buf : List Byte) : State := { State.reset with buf := buf }

/-- A block with this BUF and a finite BUF_CAP. -/
def capped (cap : Nat) (buf : List Byte) : State :=
  { State.reset with buf := buf, cfg := { Config.default with bufCap := some cap } }

/-- A block with this offered at its port. -/
def offered (inputs : List Input) : State := { State.reset with port := inputs }

/-- BUF and the last response of a next state. -/
def seen : StepOutcome → Option (List Byte × Option Response)
  | .next s => some (s.buf, s.out.getLast?)
  | .fault _ => none
  | .refused _ => none

/-- BUF and the last response of the state an overflow fault carries. -/
def seenAfterFault : StepOutcome → Option (List Byte × Option Response)
  | .next _ => none
  | .fault (.bufferOverflow s) => some (s.buf, s.out.getLast?)
  | .refused _ => none

/-- The name of a refusal. -/
def refusal : StepOutcome → Option Refusal
  | .next _ => none
  | .fault _ => none
  | .refused r => some r

/-- The identifier of the spec's vectors. -/
def ident : Ident := ⟨0xAA, 0xAA, 0x55, 0x55⟩

/-- Frame F of spec/95_test_vectors.md (E1). -/
def frameF : Frame := ⟨ident, 0x06, 0x02, 0x00, 0x01, 0x4C, 0xC2⟩

/-- Frame G of spec/95_test_vectors.md (E7). -/
def frameG : Frame := ⟨ident, 0x06, 0x48, 0x00, 0x5F, 0x2D, 0x95⟩

/-! ### Words written out from the encodings -/

/-- R43, R50: `00000011` at offset 4. -/
theorem test_decode_inquire : decode (.frame [0x01, 0x02, 0x03, 0x04, 0b00000011, 0x58, 0x12, 0x34, 0x2E, 0x9D])
    = .ok (.inquire ⟨1, 2, 3, 4⟩ 88 4660 0x2E9D) := by decide

/-- R43, R50: `00000110` at offset 4. -/
theorem test_decode_modify : decode (.frame [0xAA, 0xAA, 0x55, 0x55, 0b00000110, 0x5B, 0xFF, 0xFF, 0x81, 0xB3])
    = .ok (.modify ident 91 65535 0x81B3) := by decide

/-- R43, R50: `11111111` at offset 4, zeros behind it. -/
theorem test_decode_commitFlash : decode (.frame [0xAA, 0xAA, 0x55, 0x55, 0b11111111, 0, 0, 0, 0x5E, 0xB9])
    = .ok (.commitFlash ident 0 0 0x5EB9) := by decide

/-- R52: selector 0; operand bytes of log entry 5. -/
theorem test_decode_crc16 : decode (.command [0b00000000, 0xFF, 0xFF, 0x31, 0x32])
    = .ok (.crc16 0xFFFF [0x31, 0x32]) := by decide

/-- R52: selector 1. -/
theorem test_decode_encode : decode (.command [0b00000001, 0xAA, 0xAA, 0x55, 0x55, 0x06, 0x48, 0x00, 0x5F])
    = .ok (.encode ident 6 72 95) := by decide

/-- R52: selector 2. -/
theorem test_decode_decode :
    decode (.command [0b00000010, 0xAA, 0xAA, 0x55, 0x55, 0x06, 0x02, 0x00, 0x01, 0x4C, 0xC2])
    = .ok (.decode frameF) := by decide

/-- R52: selector 3. -/
theorem test_decode_feed : decode (.command [0b00000011, 0x55, 0x55, 0x06]) = .ok (.feed [0x55, 0x55, 0x06]) := by
  decide

/-- R52: selector 4. -/
theorem test_decode_drain : decode (.command [0b00000100]) = .ok .drain := by decide

/-- R52: selector 5. -/
theorem test_decode_rmux : decode (.command [0b00000101, 0x48]) = .ok (.rmux 72) := by decide

/-- R56: selectors 6 and 7 are refused by name. -/
theorem test_decode_reserved : decode (.command [6]) = .error .reservedSelector ∧
    decode (.command [7, 0]) = .error .reservedSelector := by decide

/-- The table's own match values, in the table's numbering: bits 47:40 are the function byte. -/
theorem test_table_words : decodeTableWord 80 0x00000000030000000000 = some (.inquire ⟨0, 0, 0, 0⟩ 0 0 0) ∧
    decodeTableWord 80 0xAAAA5555060200014CC2 = some (.modify ident 2 1 0x4CC2) ∧
    decodeTableWord 80 0x00000000FF0000000000 = some (.commitFlash ⟨0, 0, 0, 0⟩ 0 0 0) ∧
    decodeTableWord 8 0 = some (.crc16 0 []) ∧
    decodeTableWord 8 1 = some (.encode ⟨0, 0, 0, 0⟩ 0 0 0) ∧
    decodeTableWord 8 2 = some (.decode ⟨⟨0, 0, 0, 0⟩, 0, 0, 0, 0, 0, 0⟩) ∧
    decodeTableWord 8 3 = some (.feed []) ∧ decodeTableWord 8 4 = some .drain ∧
    decodeTableWord 8 5 = some (.rmux 0) ∧ decodeTableWord 8 6 = none := by decide

/-! ### Ill-formed terms the checks refuse -/

/-- R53: the function byte of `ENCODE`. -/
theorem test_wf_function_byte : (Instr.encode ident 7 0 0).wf = false ∧
    (Packet.command [1, 0xAA, 0xAA, 0x55, 0x55, 7, 0, 0, 0]).wf = false := by decide

/-- R53, R56: the selector. -/
theorem test_wf_selector : (Packet.command []).wf = false ∧ (Packet.command [6]).wf = false := by decide

/-- R53: identifiers of exactly 4 and frames of exactly 10 bytes, and every other operand length. -/
theorem test_wf_operand_lengths : (Packet.command [0, 0xFF]).wf = false ∧
    (Packet.command [1, 0xAA, 0x55, 0x55, 6, 0, 0, 0]).wf = false ∧
    (Packet.command [2, 0, 0, 0, 0, 0, 0, 0, 0, 0]).wf = false ∧
    (Packet.command [4, 0]).wf = false ∧ (Packet.command [5]).wf = false ∧
    (Packet.frame [1, 2, 3]).wf = false := by decide

/-- R49, R53: the duties of the host. -/
theorem test_host_conforming : (Instr.encode ident 255 7 9).hostConforming = false ∧
    (Instr.encode ident 6 92 0).hostConforming = false ∧ (Instr.commitFlash ident 7 0 0).hostConforming = false ∧
    (Instr.encode ident 6 91 0).hostConforming = true := by decide

/-- R7: overlapping ranges, a range past 91, and a BUF_CAP below 10 are not legal. -/
theorem test_config_legal : ¬ { RangeBase.listingOrder with linCorr := 29 }.Legal ∧
    ¬ { RangeBase.listingOrder with password := 92 }.Legal ∧
    ¬ Config.Legal { Config.default with bufCap := some 9 } ∧
    Config.Legal { Config.default with bufCap := some 10 } := by decide

/-! ### One step of each instruction -/

/-- V1, V18: chaining across the halves. -/
theorem test_crc16_chained : seen (exec (.crc16 0x875A [0x06, 0x02, 0x00, 0x01]) State.reset)
    = some ([], some ⟨.crc 0x4CC2, .none⟩) := by decide +kernel

/-- V5: the nine ASCII bytes. -/
theorem test_crc16_nine_bytes :
    seen (exec (.crc16 0xFFFF [0x31, 0x32, 0x33, 0x34, 0x35, 0x36, 0x37, 0x38, 0x39]) State.reset)
    = some ([], some ⟨.crc 0x29B1, .none⟩) := by decide +kernel

/-- E10: the byte order of the value. -/
theorem test_encode_value_order : seen (exec (.encode ⟨1, 2, 3, 4⟩ 3 88 0x1234) State.reset)
    = some ([], some ⟨.frame ⟨⟨1, 2, 3, 4⟩, 3, 0x58, 0x12, 0x34, 0x2E, 0x9D⟩, .none⟩) := by decide +kernel

/-- E11: non-zero fields of a `CommitFlash` are packed verbatim; R53: function byte 7 is refused. -/
theorem test_encode_verbatim : seen (exec (.encode ident 255 7 9) State.reset)
      = some ([], some ⟨.frame ⟨ident, 0xFF, 0x07, 0x00, 0x09, 0x4A, 0x00⟩, .none⟩) ∧
    refusal (exec (.encode ident 7 0 0) State.reset) = some (.illFormed .functionByte) := by decide +kernel

/-- X5, X14: a frame with an address above 91 is decoded; a known CRC over function byte 7 is an unknown function. -/
theorem test_decode_outcomes :
    seen (exec (.decode ⟨ident, 0x06, 0xFF, 0x80, 0x00, 0xE6, 0x78⟩) State.reset)
      = some ([], some ⟨.decoded .modify 255 32768, .none⟩) ∧
    seen (exec (.decode ⟨ident, 0x07, 0x02, 0x00, 0x01, 0x3A, 0x76⟩) State.reset)
      = some ([], some ⟨.nothing, .unknownFunction⟩) := by decide +kernel

/-- X11, X16: swapped CRC bytes; a wrong CRC with an unknown function byte is a mismatch. -/
theorem test_decode_mismatch :
    seen (exec (.decode ⟨ident, 0x06, 0x02, 0x00, 0x01, 0xC2, 0x4C⟩) State.reset)
      = some ([], some ⟨.nothing, .checksumMismatch⟩) ∧
    seen (exec (.decode ⟨ident, 0x07, 0x02, 0x00, 0x01, 0x00, 0x00⟩) State.reset)
      = some ([], some ⟨.nothing, .checksumMismatch⟩) := by decide +kernel

/-- X2: the INQUIRE frame E3. -/
theorem test_inquire : seen (exec (.inquire ident 60 0 0x3E02) State.reset)
    = some ([], some ⟨.decoded .inquire 60 0, .none⟩) := by decide +kernel

/-- X1 and X9: the MODIFY frame E1, and one bit of its CRC changed. -/
theorem test_modify : seen (exec (.modify ident 2 1 0x4CC2) State.reset)
      = some ([], some ⟨.decoded .modify 2 1, .none⟩) ∧
    seen (exec (.modify ident 2 1 0x4CC3) State.reset) = some ([], some ⟨.nothing, .checksumMismatch⟩) := by
  decide +kernel

/-- X3 and X7: the COMMITFLASH frames E4 and E11. -/
theorem test_commitFlash : seen (exec (.commitFlash ident 0 0 0x5EB9) State.reset)
      = some ([], some ⟨.decoded .commitFlash 0 0, .none⟩) ∧
    seen (exec (.commitFlash ident 7 9 0x4A00) State.reset)
      = some ([], some ⟨.decoded .commitFlash 7 9, .none⟩) := by decide +kernel

/-- B2. -/
theorem test_feed_appends : seen (exec (.feed [0x55, 0x55, 0x06]) (holding [0xAA, 0xAA]))
    = some ([0xAA, 0xAA, 0x55, 0x55, 0x06], some ⟨.nothing, .none⟩) := by decide

/-- B13, B14: overflow appends nothing; exactly filling is no overflow. -/
theorem test_feed_at_capacity :
    seenAfterFault (exec (.feed [1, 2, 3, 4, 5]) (capped 10 [1, 2, 3, 4, 5, 6]))
      = some ([1, 2, 3, 4, 5, 6], some ⟨.nothing, .bufferOverflow⟩) ∧
    seen (exec (.feed [7, 8, 9, 10]) (capped 10 [1, 2, 3, 4, 5, 6]))
      = some ([1, 2, 3, 4, 5, 6, 7, 8, 9, 10], some ⟨.nothing, .none⟩) := by decide

/-- B10: two frames in arrival order. -/
theorem test_drain_two_frames : seen (exec .drain (holding (frameF.toBytes ++ frameG.toBytes)))
    = some ([], some ⟨.frames [frameF, frameG], .none⟩) := by decide

/-- B8, B9: LEN 14 keeps everything, LEN 15 discards everything. -/
theorem test_drain_misaligned : seen (exec .drain (holding (frameF.toBytes ++ frameG.toBytes.take 4)))
      = some (frameF.toBytes ++ frameG.toBytes.take 4, some ⟨.frames [], .none⟩) ∧
    seen (exec .drain (holding (frameF.toBytes ++ frameG.toBytes.take 5)))
      = some ([], some ⟨.frames [], .frameMisalignment⟩) := by decide

/-- Section 2.6 of spec/95_test_vectors.md: both sides of range boundaries. -/
theorem test_rmux_boundaries : [0, 29, 30, 59, 60, 61, 64, 67, 71, 72, 73, 77, 78].map (rmux RangeBase.listingOrder)
    = [(some .linReal, 0), (some .linReal, 29), (some .linCorr, 0), (some .linCorr, 29), (some .segCount, 0),
       (some .adCal, 0), (some .adCal, 3), (some .vdacCal, 0), (some .vdacCal, 4), (some .emissivity, 0),
       (some .emissivity, 1), (some .curCal, 3), (some .peakHold, 0)] := by decide

/-- The same section, the end of the table, through the operation. -/
theorem test_rmux_end : seen (exec (.rmux 91) State.reset) = some ([], some ⟨.selected (some .password) 0, .none⟩) ∧
    seen (exec (.rmux 92) State.reset) = some ([], some ⟨.selected none 0, .none⟩) ∧
    seen (exec (.rmux 255) State.reset) = some ([], some ⟨.selected none 0, .none⟩) := by decide

/-! ### The step, the host's readings and sequences, the text form -/

/-- R145, R143: reset empties BUF, and an idle block holds it. -/
theorem test_step_reset_and_idle : seen (step { offered [.reset] with buf := [1, 2, 3] }) = some ([], none) ∧
    seen (step (holding [1, 2, 3])) = some ([1, 2, 3], none) := by decide

/-- A word of the opcode table runs first after reset. -/
theorem test_step_fetch_word : seen (step (State.reset.withFetchWord 8 4)) = some ([], some ⟨.frames [], .none⟩) ∧
    seen (step (State.reset.withFetchWord 80 0xAAAA5555060200014CC2))
      = some ([], some ⟨.decoded .modify 2 1, .none⟩) := by decide +kernel

/-- The table of R125 and the codes of R97. -/
theorem test_codes : Event.code .none = 0 ∧ Event.code .checksumMismatch = 1 ∧ Event.code .frameMisalignment = 2 ∧
    Event.code .unknownFunction = 3 ∧ Event.code .bufferOverflow = 4 ∧ selectCode (some .linReal) = 0 ∧
    selectCode (some .password) = 13 ∧ selectCode none = 15 := by decide

/-- Section 2.7 of spec/95_test_vectors.md. -/
theorem test_readings : asSigned16 32768 = -32768 ∧ asSigned16 65526 = -10 ∧ ofSigned16 (-10) = some 65526 ∧
    tenths 1234 = 1234 / 10 ∧ tenthsSigned 65526 = -1 := by decide +kernel

/-- A layout of fields, of the tests' own: the source gives none (N6, N7). -/
def layout : HostLayout where
  pointScale := fun _ => ⟨true, true⟩
  kind := fun _ _ => .number ⟨true, false⟩
  toggle := fun g => ⟨⟨0, by cases g <;> decide⟩, [1], 1, 0, ⟨⟨1, by cases g <;> decide⟩, none⟩⟩
  splitDate := fun k v => if k = 0 then ⟨none, some (v.toNat % 256), none⟩ else ⟨none, none, some (v.toNat % 256)⟩
  recombineDate := fun r0 r1 => some ⟨r0.toNat / 256 + r1.toNat / 256 * 256, r0.toNat % 256, r1.toNat % 256⟩
  joinDate := fun d =>
    (BitVec.ofNat 16 (d.year % 256 * 256 + d.month), BitVec.ofNat 16 (d.year / 256 * 256 + d.dayNumber))
  countOutside := fun t _ => t
  thresholdValue := fun _ _ q => BitVec.ofInt 16 (q * 10).floor
  scalarWrites := fun f _ => ⟨(⟨0, by cases f <;> decide⟩, 7), none⟩
  emissivityWrites := fun _ => ⟨(⟨0, by decide⟩, 1000), none⟩
  queryReads := fun r => [(⟨0, by cases r <;> decide⟩, 0)]

/-- A Register Map that has learnt nothing: full count, points 0. -/
def emptyMap : RegisterMap := ⟨⟨30, Vector.replicate 30 0, Vector.replicate 30 0, by decide, by decide⟩, []⟩

/-- An open session with that map. -/
def session : Session := Session.openNew ident emptyMap

/-- P6: the six commands of a write of two points. -/
theorem test_linearization_write :
    (session.submit layout RangeBase.listingOrder (.linearization [⟨1000, 1010⟩, ⟨2000, 1990⟩])).toOption
    = some [.encode ident 6 0 1000, .encode ident 6 30 1010, .encode ident 6 1 2000, .encode ident 6 31 1990,
        .encode ident 6 60 2, .encode ident 255 0 0] := by decide

/-- S8: 100 passes, 100.01 and -0.01 fail. -/
theorem test_emissivity_bounds :
    (checkedEmissivity layout 100).toOption = some [(⟨0, by decide⟩, 1000)] ∧
    (checkedEmissivity layout (10001 / 100)).toOption = none ∧
    (checkedEmissivity layout (-1 / 100)).toOption = none := by decide +kernel

/-- S7, R113: with the flag off no threshold is written, with it on the threshold comes after the flag. -/
theorem test_toggle_write :
    (session.submit layout RangeBase.listingOrder (.toggle .lowAlarm false ⟨50, none⟩)).toOption
      = some [.encode ident 6 82 0, .encode ident 255 0 0] ∧
    (session.submit layout RangeBase.listingOrder (.toggle .lowAlarm true ⟨50, none⟩)).toOption
      = some [.encode ident 6 82 1, .encode ident 6 83 500, .encode ident 255 0 0] := by decide +kernel

/-- Section 2.7 of spec/95_test_vectors.md: 65526 read in signed tenths is -1.0. -/
theorem test_interpret_point :
    interpretDecoded layout RangeBase.listingOrder 31 65526 = some (.linearPointUpdated .line 1 (-1)) ∧
    interpretDecoded layout RangeBase.listingOrder 91 1 = none ∧
    interpretDecoded layout RangeBase.listingOrder 92 1 = none := by decide +kernel

/-- S6: a count of 5 clears points 5 to 29 and keeps point 4. -/
theorem test_segment_count :
    let m := ((emptyMap.apply layout (.linearPointUpdated .real 4 12)).apply layout (.linearPointUpdated .real 5 9)).apply
      layout (.segmentCountUpdated 5)
    m.table.point? .real 4 = some 12 ∧ m.table.point? .real 5 = some 0 ∧ m.table.point? .real 29 = some 0 := by
  decide +kernel

/-- R110: a threshold is read while its group is on and is stale once it is off. -/
theorem test_threshold_stale :
    let m := (emptyMap.apply layout (.field .lowAlarm 1 (.number 50))).apply layout (.toggleUpdated .lowAlarm true)
    m.threshold? layout .lowAlarm ⟨1, by decide⟩ = some (.number 50) ∧
    (m.apply layout (.toggleUpdated .lowAlarm false)).threshold? layout .lowAlarm ⟨1, by decide⟩ = none := by
  decide +kernel

/-- R107: a date whose year spans the two DEV_ID registers recombines from what was written, once both are learnt. -/
theorem test_device_date :
    layout.joinDate ⟨2024, 7, 31⟩ = (0xE807, 0x071F) ∧
    (let learn := fun (m : RegisterMap) (addr : Byte) (v : Word) =>
        ((interpretDecoded layout RangeBase.listingOrder addr v).map (m.apply layout)).getD m
     (learn emptyMap 89 0xE807).deviceDate? layout = none ∧
     (learn (learn emptyMap 89 0xE807) 90 0x071F).deviceDate? layout = some ⟨2024, 7, 31⟩) := by decide +kernel

/-- R58: the text of a command and of a response, as spec/95_test_vectors.md writes them. -/
theorem test_text : textInstr (.encode ident 6 72 95) = "ENCODE AA AA 55 55, MODIFY, 72, 95" ∧
    textResponse ⟨.frame frameG, .none⟩ = "=> frame=AA AA 55 55 06 48 00 5F 2D 95" ∧
    textResponse ⟨.selected (some .emissivity) 0, .none⟩ = "=> sel=EMISSIVITY index=0" := by decide +kernel

/-! ### Data that meet the hypotheses of the obligations, one theorem an obligation, at the bounds of its clauses -/

theorem witness_ResetInputOnlyEmptiesBuffer :
    ({ offered [.reset, .packet (.command [4])] with buf := [1] }).port = .reset :: [.packet (.command [4])] := by decide

theorem witness_IdleBlockHoldsState : (holding [1, 2, 3]).port = [] := by decide

theorem witness_StepRunsDecodedInstruction :
    (offered [.packet (.command [5, 31]), .reset]).port = .packet (.command [5, 31]) :: [.reset] ∧
    decode (.command [5, 31]) = .ok (.rmux 31) := by decide

theorem witness_IllFormedTransactionsRefused :
    (offered [.packet (.command [6])]).port = .packet (.command [6]) :: [] ∧
    (Packet.command [6]).wf = false ∧ refusal (step (offered [.packet (.command [6])]))
      = some (.illFormed .reservedSelector) := by decide

theorem witness_FetchWordIsRunNext : decodeTableWord 8 5 = some (.rmux 0) := by decide

theorem witness_EncodeDecodeGivesPacketBack : decode (.command [3, 0x55]) = .ok (.feed [0x55]) ∧
    frameF.function = FunctionCode.modify.toByte ∧
    decode (.frame frameF.toBytes) = .ok (.modify ident 2 1 0x4CC2) := by decide

theorem witness_ReservedSelectorsNameNothing : 6 ≤ (6 : Byte).toNat ∧ 6 ≤ (7 : Byte).toNat ∧ 6 ≤ (255 : Byte).toNat := by
  decide

theorem witness_ValueFieldIsBigEndian : ∃ t, exec (.decode frameF) State.reset = .next t ∧
    t.out = State.reset.out ++ [⟨.decoded .modify 2 1, .none⟩] := ⟨_, rfl, by decide +kernel⟩

theorem witness_Crc16ChainsThroughInit :
    seen (exec (.crc16 0xFFFF [0xAA, 0xAA, 0x55, 0x55]) State.reset) = some ([], some ⟨.crc 0x875A, .none⟩) := by
  decide +kernel

theorem witness_CrcIsLinear : ([0x12, 0x34] : List Byte).length = ([0xAB, 0xCD] : List Byte).length := by decide

theorem witness_EncodeRefusesUnknownFunctionBytes : (7 : Byte) ≠ 3 ∧ (7 : Byte) ≠ 6 ∧ (7 : Byte) ≠ 255 := by decide

theorem witness_FramePacketActsAsDecode :
    (offered [.packet (.frame frameF.toBytes)]).port = .packet (.frame frameF.toBytes) :: [] := by decide

/-- E1 with another identifier: the CRC differs, the fields do not. -/
theorem witness_IdentifierOnlyEntersCrc :
    crc16 frameF.body 0xFFFF = frameF.crc ∧
    crc16 (buildFrame ⟨1, 2, 3, 4⟩ 6 2 1).body 0xFFFF = (buildFrame ⟨1, 2, 3, 4⟩ 6 2 1).crc ∧
    frameF.function = (buildFrame ⟨1, 2, 3, 4⟩ 6 2 1).function ∧
    frameF.address = (buildFrame ⟨1, 2, 3, 4⟩ 6 2 1).address ∧
    frameF.value = (buildFrame ⟨1, 2, 3, 4⟩ 6 2 1).value ∧ frameF.id ≠ ⟨1, 2, 3, 4⟩ := by decide +kernel

/-- Both clauses, at their common bound: four bytes fit behind six of ten, five do not. -/
theorem witness_FeedAppendsOrOverflows :
    (∀ cap, (capped 10 [1, 2, 3, 4, 5, 6]).cfg.bufCap = some cap →
      (capped 10 [1, 2, 3, 4, 5, 6]).buf.length + [7, 8, 9, 10].length ≤ cap) ∧
    ((capped 10 [1, 2, 3, 4, 5, 6]).cfg.bufCap = some 10 ∧
      10 < (capped 10 [1, 2, 3, 4, 5, 6]).buf.length + [7, 8, 9, 10, 11].length) := by
  refine ⟨?_, by decide⟩
  intro cap h
  obtain rfl : 10 = cap := by simpa [capped] using h
  decide

theorem witness_FeedsConcatenate : (capped 10 []).fits ([1, 2, 3].length + [4, 5, 6, 7, 8, 9, 10].length) = true := by
  decide

/-- The three clauses at LEN 0 and 10, 1 and 11, 2 and 12. -/
theorem witness_DrainActsByLength :
    (holding []).buf.length % 10 = 0 ∧ (holding frameF.toBytes).buf.length % 10 = 0 ∧
    (holding [1]).buf.length % 2 = 1 ∧ (holding (1 :: frameF.toBytes)).buf.length % 2 = 1 ∧
    ((holding [1, 2]).buf.length % 2 = 0 ∧ (holding [1, 2]).buf.length % 10 ≠ 0) ∧
    ((holding (1 :: 2 :: frameF.toBytes)).buf.length % 2 = 0 ∧
      (holding (1 :: 2 :: frameF.toBytes)).buf.length % 10 ≠ 0) := by decide

theorem witness_SecondDrainFindsNothing :
    ((holding [1, 2]).buf.length % 2 = 0 ∧ (holding [1, 2]).buf.length % 10 ≠ 0) ∧
    ¬ ((holding frameF.toBytes).buf.length % 2 = 0 ∧ (holding frameF.toBytes).buf.length % 10 ≠ 0) := by decide

/-- 4 + 6 bytes with a `DRAIN` between. -/
theorem witness_ChunkingDoesNotMatter :
    (holding []).buf = [] ∧
    (holding []).fits (fedBytes [.feed [0xAA, 0xAA, 0x55, 0x55], .drain, .feed [6, 2, 0, 1, 0x4C, 0xC2]]).length = true ∧
    (∀ i ∈ [Instr.feed [0xAA, 0xAA, 0x55, 0x55], .drain, .feed [6, 2, 0, 1, 0x4C, 0xC2]],
      i = .drain ∨ ∃ chunk, i = .feed chunk) ∧
    (∀ before after, [Instr.feed [0xAA, 0xAA, 0x55, 0x55], .drain, .feed [6, 2, 0, 1, 0x4C, 0xC2]]
        = before ++ .drain :: after →
      (fedBytes before).length = 0 ∨
        ((fedBytes before).length % 2 = 0 ∧ (fedBytes before).length % 10 ≠ 0)) := by
  refine ⟨rfl, rfl, by simp, ?_⟩
  intro before after h
  rcases before with _ | ⟨i, _ | ⟨j, _ | ⟨k, rest⟩⟩⟩ <;> simp at h
  obtain ⟨rfl, -⟩ := h
  decide

theorem witness_FrameSplitAtOddOffsetIsLost : (capped 10 []).buf = [] ∧ (capped 10 []).fits 10 = true := by decide

theorem witness_ForcedDiscardEmptiesBuffer :
    ((holding [1]).buf ≠ [] ∧ (holding [1]).fits 1 = true) ∧
    ((capped 11 frameF.toBytes).buf ≠ [] ∧ (capped 11 frameF.toBytes).fits 1 = true) := by decide

/-- P4: four stray bytes, then whole frames. -/
theorem witness_EvenMisalignmentNeverHeals :
    (holding [6, 7, 8, 9]).cfg.bufCap = none ∧ (holding [6, 7, 8, 9]).buf.length % 2 = 0 ∧
    (holding [6, 7, 8, 9]).buf.length % 10 ≠ 0 ∧
    ∀ i ∈ [Instr.feed frameG.toBytes, .drain, .feed (frameF.toBytes ++ frameG.toBytes), .drain],
      i = .drain ∨ ∃ chunk, i = .feed chunk ∧ chunk.length % 10 = 0 := by
  refine ⟨rfl, rfl, by decide, ?_⟩
  simp only [List.mem_cons, List.not_mem_nil, or_false]
  rintro i (rfl | rfl | rfl | rfl)
  · exact .inr ⟨_, rfl, by decide⟩
  · exact .inl rfl
  · exact .inr ⟨_, rfl, by decide⟩
  · exact .inl rfl

theorem witness_FullMisalignedBufferStaysStuck :
    (capped 12 (1 :: 2 :: frameF.toBytes)).cfg.bufCap = some 12 ∧
    (capped 12 (1 :: 2 :: frameF.toBytes)).buf.length = 12 ∧ 12 % 2 = 0 ∧ 12 % 10 ≠ 0 ∧
    ∀ i ∈ [Instr.feed [1], .drain], i = .drain ∨ ∃ chunk, chunk ≠ [] ∧ i = .feed chunk := by
  refine ⟨rfl, rfl, rfl, by decide, ?_⟩
  simp

theorem witness_BytesLeaveInOrder : ∃ t, runProgram [.feed frameF.toBytes, .drain] (holding []) = .next t ∧
    ∀ r ∈ newResponses (holding []) t, r.event ≠ .frameMisalignment := ⟨_, rfl, by decide⟩

/-- Both clauses at their bounds: addresses 0 and 91, 92 and 255. -/
theorem witness_RmuxSelectsTheOneRange : State.reset.cfg.rangeBase.Legal ∧
    (0 : Byte).toNat ≤ 91 ∧ (91 : Byte).toNat ≤ 91 ∧ 92 ≤ (92 : Byte).toNat ∧ 92 ≤ (255 : Byte).toNat := by decide

theorem witness_RmuxOrderDoesNotMatter :
    RangeBase.listingOrder.Legal ∧ RangeName.all.reverse.Perm RangeName.all :=
  ⟨RangeBase.listingOrder_legal, List.reverse_perm _⟩

/-- The clauses at the last index of a range and just past it. -/
theorem witness_AddressOfInvertsRmux : RangeBase.listingOrder.Legal ∧ 29 < RangeName.linReal.length ∧
    rmux RangeBase.listingOrder 29 = (some .linReal, 29) ∧ RangeName.linReal.length ≤ 30 := by decide

theorem witness_DefaultTableAnswers : State.reset.cfg.rangeBase = RangeBase.listingOrder := by decide

theorem witness_DisjointRangesTileTheAddresses :
    RangeBase.listingOrder.Within ∧ RangeBase.listingOrder.Disjoint := by decide

theorem witness_StepKeepsBufferWithinCapacity :
    (capped 10 []).Inv ∧ Reaches (step { capped 10 [] with port := [.packet (.command [3, 1])] })
      (((capped 10 []).appendBuf [1]).answer .nothing) := ⟨⟨by decide, by decide⟩, rfl⟩

theorem witness_ResetMeetsInvariant : Config.Legal { Config.default with bufCap := some 10 } := by decide

theorem witness_OnlyReassemblerWritesBuffer : ∃ t, Reaches (exec (.feed [1]) (holding [])) t ∧ t.buf ≠ (holding []).buf :=
  ⟨_, rfl, by decide⟩

theorem witness_WellFormedInstructionsComplete : (Instr.encode ident 255 0 0).wf = true ∧
    (Instr.feed [7, 8, 9, 10]).wf = true ∧ (capped 10 [1, 2, 3, 4, 5, 6]).fits [7, 8, 9, 10].length = true := by decide

theorem witness_StopsAreOverflowOrIllFormed :
    (∃ f, exec (.feed [1]) (capped 10 frameF.toBytes) = .fault f) ∧
    ∃ r, exec (.encode ident 7 0 0) State.reset = .refused r := ⟨⟨_, rfl⟩, ⟨_, rfl⟩⟩

/-- The four events. -/
theorem witness_EventsAsTabled :
    (∃ t, Reaches (exec (.feed [1]) (capped 10 frameF.toBytes)) t ∧ t.out = [⟨.nothing, .bufferOverflow⟩]) ∧
    (∃ t, Reaches (exec .drain (holding [1])) t ∧ t.out = [⟨.frames [], .frameMisalignment⟩]) ∧
    (∃ t, Reaches (exec (.modify ident 2 1 0x4CC3) State.reset) t ∧ t.out = [⟨.nothing, .checksumMismatch⟩]) ∧
    ∃ t, Reaches (exec (.decode ⟨ident, 0x07, 0x02, 0x00, 0x01, 0x3A, 0x76⟩) State.reset) t ∧
      t.out = [⟨.nothing, .unknownFunction⟩] :=
  ⟨⟨_, rfl, by decide⟩, ⟨_, rfl, by decide⟩, ⟨_, rfl, by decide +kernel⟩, ⟨_, rfl, by decide +kernel⟩⟩

theorem witness_PureOperationsIgnoreState : touchesBuf (.encode ident 6 2 1) = false ∧
    (Instr.encode ident 6 2 1).wf = true ∧ (holding [1, 2]).cfg = State.reset.cfg ∧ holding [1, 2] ≠ State.reset := by
  decide

theorem witness_ReceiveDeliversOneFrame : (capped 10 []).buf = [] ∧ (capped 10 []).fits 10 = true := by decide

/-- Both clauses at their bounds: 1 and 30 points, 0 and 31. -/
theorem witness_LinearizationWriteSequence :
    session.phase = .opened ∧ RangeBase.listingOrder.Legal ∧
    (1 ≤ (List.replicate 1 (LinPoint.mk 0 0)).length ∧ (List.replicate 1 (LinPoint.mk 0 0)).length ≤ 30) ∧
    (1 ≤ (List.replicate 30 (LinPoint.mk 0 0)).length ∧ (List.replicate 30 (LinPoint.mk 0 0)).length ≤ 30) ∧
    ([] : List LinPoint).length = 0 ∧ 30 < (List.replicate 31 (LinPoint.mk 0 0)).length := by decide

/-- A group with one threshold, and one with two. -/
theorem witness_ToggleWriteSequence : session.phase = .opened ∧
    ((layout.toggle .lowAlarm).thresholds.second = none ∧ (OneOrTwo.mk (50 : Rat) none).second = none) ∧
    ∃ l : HostLayout, (l.toggle .peakHold).thresholds.second = some ⟨2, by decide⟩ ∧
      (OneOrTwo.mk (50 : Rat) (some 60)).second = some 60 :=
  ⟨rfl, ⟨rfl, rfl⟩, { layout with
    toggle := fun g => ⟨⟨0, by cases g <;> decide⟩, [1], 1, 0,
      ⟨⟨1, by cases g <;> decide⟩, some ⟨2, by cases g <;> decide⟩⟩⟩ }, rfl, rfl⟩

/-- Both clauses at their bounds (S8). -/
theorem witness_EmissivityWriteChecksPercentage : session.phase = .opened ∧
    ((0 : Rat) ≤ 0 ∧ (0 : Rat) ≤ 100) ∧ ((0 : Rat) ≤ 100 ∧ (100 : Rat) ≤ 100) ∧
    (-1 / 100 : Rat) < 0 ∧ (100 : Rat) < 10001 / 100 := by decide +kernel

theorem witness_ClosedSessionIssuesNothing : session.closeDown.phase = .closed := by decide

/-- Counts 1 and 30, with the indices next to them. -/
theorem witness_SegmentCountClearsTail : (1 ≤ 1 ∧ 1 ≤ 30) ∧ (0 < 1 ∧ 1 ≤ 1) ∧ (1 ≤ 30 ∧ 30 ≤ 30) ∧ 29 < 30 ∧
    ∃ t : LinTable, t.count = 1 :=
  ⟨by decide, by decide, by decide, by decide,
    ⟨1, Vector.replicate 30 0, Vector.replicate 30 0, by decide, by decide⟩, rfl⟩

/-- The range and index a `Modify` frame of this address and value selects, if it passes the CRC check. -/
def selects (addr : Byte) (v : Word) : Option (Option RangeName × Nat) :=
  let f := buildFrame ident 6 addr v
  if crc16 f.toBytes 0xFFFF = 0 ∧ f.function = 6 ∧ f.value = v then some (rmux (capped 10 []).cfg.rangeBase f.address)
  else none

/-- The premises, and the clauses without an effect: a wrong CRC, a commit frame, an address outside the ranges,
PASSWORD. -/
theorem witness_InboundFrameReachesRegisterMap :
    session.phase = .opened ∧ (capped 10 []).buf = [] ∧ (capped 10 []).fits 10 = true ∧
    crc16 { frameF with crcLow := 0xC3 }.toBytes 0xFFFF ≠ 0 ∧
    (let f := buildFrame ident 255 0 0; crc16 f.toBytes 0xFFFF = 0 ∧ f.function ≠ 3 ∧ f.function ≠ 6) ∧
    selects 92 1 = some (none, 0) ∧ selects 91 1 = some (some .password, 0) := by decide +kernel

/-- The clauses of the linearization points at their bounds, and of the count at 0, 1, 30 and 31; an `Inquire` frame
too. -/
theorem witness_InboundFrameReachesRegisterMap_table :
    selects 0 1000 = some (some .linReal, 0) ∧ selects 29 1 = some (some .linReal, 29) ∧
    selects 30 1010 = some (some .linCorr, 0) ∧ selects 59 1 = some (some .linCorr, 29) ∧
    selects 60 0 = some (some .segCount, 0) ∧ selects 60 1 = some (some .segCount, 0) ∧
    selects 60 30 = some (some .segCount, 0) ∧ selects 60 31 = some (some .segCount, 0) ∧
    (let f := buildFrame ident 3 31 0
     crc16 f.toBytes 0xFFFF = 0 ∧ f.function = 3 ∧ rmux (capped 10 []).cfg.rangeBase f.address = (some .linCorr, 1)) := by
  decide +kernel

/-- The clauses of the threshold groups: a flag on and off, a threshold, and the registers at the groups' bounds. -/
theorem witness_InboundFrameReachesRegisterMap_groups :
    (selects 82 1 = some (some ToggleName.lowAlarm.range, ((layout.toggle .lowAlarm).flag : Nat)) ∧
      (layout.toggle .lowAlarm).onValues.contains 1 = true ∧ (layout.toggle .lowAlarm).onValues.contains 0 = false ∧
      (layout.toggle .lowAlarm).thresholds.toList.map Fin.val = [1] ∧ ((layout.toggle .lowAlarm).flag : Nat) = 0) ∧
    (selects 83 1 = some (some ToggleName.lowAlarm.range, 1) ∧ 1 ≠ ((layout.toggle .lowAlarm).flag : Nat)) ∧
    selects 78 1 = some (some .peakHold, 0) ∧ selects 81 1 = some (some .peakHold, 3) ∧
    selects 85 1 = some (some .highAlarm, 0) ∧ selects 87 1 = some (some .highAlarm, 2) := by decide +kernel

/-- The clauses of the calibration ranges, the plain fields and the device identifier. -/
theorem witness_InboundFrameReachesRegisterMap_fields :
    selects 61 1 = some (some .adCal, 0) ∧ selects 71 1 = some (some .vdacCal, 4) ∧
    selects 77 1 = some (some .curCal, 3) ∧ selects 65 1 = some (some .tempRange, 0) ∧
    selects 73 1 = some (some .emissivity, 1) ∧ selects 88 1 = some (some .respTime, 0) ∧
    selects 89 1 = some (some .devId, 0) ∧ selects 90 1 = some (some .devId, 1) := by decide +kernel

/-- Four stray bytes, then a whole frame and a `DRAIN` offered. -/
theorem witness_EvenMisalignmentIsKeptByStep :
    ({ holding [1, 2, 3, 4] with
      port := [.packet (encode (.feed frameF.toBytes)), .packet (encode .drain)] }).MisalignedForWholeFrames :=
  ⟨by decide, by decide, by
    simp only [List.mem_cons, List.not_mem_nil, or_false, forall_eq_or_imp, forall_eq]
    exact ⟨⟨_, _, rfl, rfl, by rintro chunk h; cases h; rfl⟩, ⟨_, _, rfl, rfl, by simp⟩⟩⟩

/-- The clauses at their bounds. -/
theorem witness_SignedReadingOfValues : (32767 : Word).toNat ≤ 32767 ∧ 32768 ≤ (32768 : Word).toNat ∧
    ((0 : Int) ≤ 0 ∧ (0 : Int) ≤ 32767) ∧ ((0 : Int) ≤ 32767 ∧ (32767 : Int) ≤ 32767) ∧
    ((-32768 : Int) ≤ -32768 ∧ (-32768 : Int) ≤ -1) ∧ ((-32768 : Int) ≤ -1 ∧ (-1 : Int) ≤ -1) := by decide

end Sys2Proof.Tests
end

/-! ### The value field on `ENCODE` and `DECODE` (R45) -/

namespace Sys2Proof.Machine

theorem exec_encode (id : Ident) (fn addr : Byte) (v : Word) (s : State) :
    exec (.encode id fn addr v) s = execEncode id fn addr v s := rfl

theorem exec_decode (f : Frame) (s : State) : exec (.decode f) s = execDecode f s := rfl

/-- The value's two bytes stand at offsets 6 and 7 of a built frame, the high byte first. -/
theorem buildFrame_toBytes_value (id : Ident) (fb addr : Byte) (v : Word) :
    (buildFrame id fb addr v).toBytes[6]? = some (highByte v) ∧
    (buildFrame id fb addr v).toBytes[7]? = some (lowByte v) := ⟨rfl, rfl⟩

/-- The one response `DECODE` delivers is the frame's verdict. -/
theorem execDecode_out {f : Frame} {s t : State} (h : execDecode f s = .next t) :
    t.out = s.out ++ [frameVerdict f] := by
  obtain rfl : s.respond (frameVerdict f).result (frameVerdict f).event = t := by
    simpa only [execDecode, Host.Outcome.next.injEq] using h
  rfl

/-- A verdict that carries fields carries the frame's own address and value field. -/
theorem frameVerdict_eq_decoded {f : Frame} {fc : FunctionCode} {addr : Byte} {v : Word} {e : Event}
    (h : frameVerdict f = ⟨.decoded fc addr v, e⟩) : addr = f.address ∧ v = f.value := by
  rcases frameVerdict_cases f with ⟨_, hv⟩ | ⟨_, _, hv⟩ | ⟨_, _, _, hv⟩
  · simp [hv] at h
  · simp [hv] at h
  · obtain ⟨⟨_, ha, hval⟩, _⟩ : (_ ∧ f.address = addr ∧ f.value = v) ∧ _ := by simpa [hv] using h
    exact ⟨ha.symm, hval.symm⟩

/-- Settles O13: `ENCODE` answers the built frame, whose value bytes are known; the value `DECODE` answers is the
frame's value field, which `be16_toNat` reads as a number. -/
theorem valueFieldIsBigEndian : Obligations.ValueFieldIsBigEndian := by
  unfold Obligations.ValueFieldIsBigEndian
  constructor
  · intro s id fc addr v
    exact ⟨buildFrame id fc.toByte addr v, by rw [exec_encode, execEncode_known]; rfl,
      buildFrame_toBytes_value id fc.toByte addr v⟩
  · intro s t f fc addr v hexec hout
    have hverdict : frameVerdict f = ⟨.decoded fc addr v, .none⟩ := by
      rw [exec_decode] at hexec
      simpa [execDecode_out hexec] using hout
    obtain ⟨_, rfl⟩ := frameVerdict_eq_decoded hverdict
    exact be16_toNat f.valueHigh f.valueLow

end Sys2Proof.Machine

/-! ### The CRC engine (R61, R63) -/

namespace Sys2Proof.Machine

theorem exec_crc16 (init : Word) (data : List Byte) (s : State) :
    exec (.crc16 init data) s = .next { s with out := s.out ++ [⟨.crc (crc16 data init), .none⟩] } := rfl

/-- The fixed point behind R63's all-zero case: no round sets a bit of a zero accumulator. -/
theorem crcStep_zero_zero : crcStep 0 0 = 0 := by decide

theorem crc16_replicate_zero (n : Nat) : crc16 (List.replicate n 0) 0 = 0 := by
  induction n with
  | zero => rfl
  | succ n ih => rw [List.replicate_succ, crc16_cons, crcStep_zero_zero, ih]

/-- The worked example of R63. -/
theorem crc16_workedExample :
    crc16 [0xAA, 0xAA, 0x55, 0x55, 0x06, 0x02, 0x00, 0x01] 0xFFFF = 0x4CC2 := by decide +kernel

/-- Settles O14: `CRC16` answers `crc16`, which is the fold by definition; what remains is its value on empty data,
on all-zero data from 0, and on the worked example. -/
theorem crc16AnswersTheFold : Obligations.Crc16AnswersTheFold := by
  unfold Obligations.Crc16AnswersTheFold
  refine ⟨fun s init data => exec_crc16 init data s, fun s init => ?_, fun s n => ?_, fun s => ?_⟩
  · rw [exec_crc16, crc16_nil]
  · rw [exec_crc16, crc16_replicate_zero]
  · rw [exec_crc16, crc16_workedExample]

/-- The rounds are the iterates of one round. -/
theorem crcRounds_eq_iterate (n : Nat) (a : Word) : crcRounds n a = crcRound^[n] a := by
  induction n generalizing a with
  | zero => rfl
  | succ n ih => rw [crcRounds_succ, ih, Function.iterate_succ_apply]

/-- One round as R61 writes it: bit 15 is tested before the shift, and the mask to 16 bits keeps every bit of a
16-bit word. -/
theorem crcRound_eq_masked (a : Word) :
    crcRound a = if a.getLsbD 15 = true then ((a <<< 1) &&& 0xFFFF#16) ^^^ 0x1021#16
      else (a <<< 1) &&& 0xFFFF#16 := by
  have hmask : (a <<< 1) &&& 0xFFFF#16 = a <<< 1 := BitVec.and_allOnes
  rw [hmask, crcRound, BitVec.msb_eq_getLsbD_last, crcPoly]
  rfl

/-- Settles O15: the rounds of `crc_step` are iterates of the round, and each round is R61's masked one. -/
theorem crcStepIsEightRounds : Obligations.CrcStepIsEightRounds := by
  unfold Obligations.CrcStepIsEightRounds
  intro acc b
  rw [← funext crcRound_eq_masked, crcStep, crcRounds_eq_iterate, absorb]

end Sys2Proof.Machine

/-! ### The frame `ENCODE` builds (R70) -/

namespace Sys2Proof.Machine

theorem exec_encode_toByte (id : Ident) (fc : FunctionCode) (addr : Byte) (v : Word) (s : State) :
    exec (.encode id fc.toByte addr v) s
      = .next { s with out := s.out ++ [⟨.frame (buildFrame id fc.toByte addr v), .none⟩] } := by
  rw [exec_encode, execEncode_known]; rfl

theorem buildFrame_body (id : Ident) (fb addr : Byte) (v : Word) :
    (buildFrame id fb addr v).body = [id.b0, id.b1, id.b2, id.b3, fb, addr, highByte v, lowByte v] :=
  Frame.body_ofFields id fb addr v _

/-- The CRC bytes of a built frame are computed over its own body: storing the CRC does not change what it covers. -/
theorem buildFrame_toBytes (id : Ident) (fb addr : Byte) (v : Word) :
    (buildFrame id fb addr v).toBytes = (buildFrame id fb addr v).body ++
      [highByte (crc16 (buildFrame id fb addr v).body codecCrcInit),
        lowByte (crc16 (buildFrame id fb addr v).body codecCrcInit)] := rfl

/-- Settles O21: with the byte of a function code `ENCODE` answers `buildFrame` of its operands, whose body and CRC
bytes are known. -/
theorem encodeBuildsTheFrame : Obligations.EncodeBuildsTheFrame := by
  unfold Obligations.EncodeBuildsTheFrame
  intro s id fc addr v
  refine ⟨fc.toByte, buildFrame id fc.toByte addr v, ?functionByte, exec_encode_toByte id fc addr v s,
    buildFrame_body id fc.toByte addr v, buildFrame_toBytes id fc.toByte addr v⟩
  case functionByte => cases fc <;> rfl

end Sys2Proof.Machine

/-! ### The frames `DRAIN` cuts (R83) -/

namespace Sys2Proof.Machine

theorem exec_drain (s : State) : exec .drain s = execDrain s := rfl

/-- Laid end to end, frames are found again at the multiples of ten, every frame being ten bytes. -/
theorem map_toBytes_getElem?_eq_take_drop (fs : List Frame) {k : Nat} (hk : k < fs.length) :
    (fs[k]?).map Frame.toBytes = some (((fs.flatMap Frame.toBytes).drop (10 * k)).take 10) := by
  induction fs generalizing k with
  | nil => simp at hk
  | cons f fs ih =>
    rw [List.flatMap_cons]
    cases k with
    | zero => simp [List.take_left' f.toBytes_length]
    | succ k =>
      have hskip : (f.toBytes ++ fs.flatMap Frame.toBytes).drop (10 * (k + 1))
          = (fs.flatMap Frame.toBytes).drop (10 * k) := by
        rw [Nat.mul_succ, Nat.add_comm, ← List.drop_drop, List.drop_left' f.toBytes_length]
      rw [hskip, List.getElem?_cons_succ]
      exact ih (Nat.lt_of_succ_lt_succ hk)

/-- Frame `k` cut of an aligned buffer is its bytes `10k` to `10k+9`. -/
theorem cutFrames_getElem?_toBytes {bs : List Byte} (h : bs.length % 10 = 0) {k : Nat} (hk : k < bs.length / 10) :
    ((cutFrames bs)[k]?).map Frame.toBytes = some ((bs.drop (10 * k)).take 10) := by
  rw [← cutFrames_length] at hk
  rw [map_toBytes_getElem?_eq_take_drop _ hk, cutFrames_aligned h]

/-- Settles O31: the three classes of LEN are the three cases of `execDrain`; in the aligned one the frames are
`cutFrames` of BUF, whose number and bytes are known. -/
theorem drainActsByLength : Obligations.DrainActsByLength := by
  unfold Obligations.DrainActsByLength
  intro s
  rw [exec_drain]
  refine ⟨fun haligned => ⟨cutFrames s.buf, ?_, cutFrames_length s.buf,
    fun k hk => cutFrames_getElem?_toBytes haligned hk⟩, fun hodd => ?_, fun heven hten => ?_⟩
  · rw [execDrain_aligned haligned]; rfl
  · rw [execDrain_odd hodd]; rfl
  · rw [execDrain_even heven hten]; rfl

end Sys2Proof.Machine

/-! ### The range `RMUX` selects (R93) -/

namespace Sys2Proof.Machine

theorem exec_rmux (addr : Byte) (s : State) :
    exec (.rmux addr) s = .next { s with out := s.out ++
      [⟨.selected (rmux s.cfg.rangeBase addr).1 (rmux s.cfg.rangeBase addr).2, .none⟩] } := rfl

/-- The loop of R93 is a search for the first range that holds the address; the offset is computed on the range
found. -/
theorem selectRange_eq_find? (b : RangeBase) (addr : Byte) (l : List RangeName) :
    selectRange b addr l =
      (l.find? (inRange b addr)).elim (none, 0) fun r => (some r, addr.toNat - (b.base r).toNat) := by
  induction l with
  | nil => rfl
  | cons r rest ih =>
    rw [selectRange, List.find?_cons]
    cases inRange b addr r with
    | true => rfl
    | false => exact ih

theorem inRange_eq_decide (b : RangeBase) (addr : Byte) : inRange b addr = fun r =>
    decide ((b.base r).toNat ≤ addr.toNat ∧ addr.toNat ≤ (b.base r).toNat + r.length - 1) := by
  funext r
  rw [inRange, Bool.decide_and]

/-- Settles O40: `RMUX` answers what the loop of R93 selects, and the loop is a search in listing order. -/
theorem rmuxAnswersFirstHoldingRange : Obligations.RmuxAnswersFirstHoldingRange := by
  unfold Obligations.RmuxAnswersFirstHoldingRange
  intro s addr
  rw [exec_rmux, rmux, selectRange_eq_find?, ← inRange_eq_decide]
  cases RangeName.all.find? (inRange s.cfg.rangeBase addr) with
  | none => rfl
  | some r => rfl

end Sys2Proof.Machine

/-! ### The signed reading of a value (R101) -/

namespace Sys2Proof.Machine

theorem asSigned16_of_le {v : Word} (h : v.toNat ≤ 32767) : asSigned16 v = v.toNat := if_pos h

theorem asSigned16_of_ge {v : Word} (h : 32768 ≤ v.toNat) : asSigned16 v = (v.toNat : Int) - 65536 :=
  if_neg (by omega)

theorem asSigned16_bounds (v : Word) : -32768 ≤ asSigned16 v ∧ asSigned16 v ≤ 32767 := by
  have hword : v.toNat < 65536 := v.isLt
  rcases Nat.lt_or_ge v.toNat 32768 with hlow | hhigh
  · rw [asSigned16_of_le (by omega)]; omega
  · rw [asSigned16_of_ge hhigh]; omega

/-- A number that fits 16 bits is read back unchanged from its word. -/
theorem toNat_ofNat_toNat {n : Int} (h0 : 0 ≤ n) (h : n < 65536) : ((BitVec.ofNat 16 n.toNat).toNat : Int) = n := by
  rw [BitVec.toNat_ofNat, Nat.mod_eq_of_lt (by omega), Int.toNat_of_nonneg h0]

/-- The upper half of R101's inverse: the word is the number itself. -/
theorem ofSigned16_of_nonneg {n : Int} (h0 : 0 ≤ n) (h : n ≤ 32767) :
    ∃ v : Word, ofSigned16 n = some v ∧ (v.toNat : Int) = n :=
  ⟨_, if_pos ⟨h0, h⟩, toNat_ofNat_toNat h0 (by omega)⟩

/-- The lower half of R101's inverse: the word is the number shifted up by 65536. -/
theorem ofSigned16_of_neg {n : Int} (h : -32768 ≤ n) (h1 : n ≤ -1) :
    ∃ v : Word, ofSigned16 n = some v ∧ (v.toNat : Int) = n + 65536 :=
  ⟨_, (if_neg (by omega)).trans (if_pos ⟨h, h1⟩), toNat_ofNat_toNat (by omega) (by omega)⟩

/-- Settles O60: the word of a number from 0 up lies in the half that is read unshifted, the word of a negative number
in the half that is read shifted down by 65536, so each is read back. -/
theorem signedReadingOfValues : Obligations.SignedReadingOfValues := by
  unfold Obligations.SignedReadingOfValues
  refine ⟨fun v => ⟨asSigned16_of_le, asSigned16_of_ge, asSigned16_bounds v⟩, fun n h0 h => ?nonneg,
    fun n h h1 => ?neg, by decide⟩
  case nonneg =>
    obtain ⟨v, hof, hv⟩ := ofSigned16_of_nonneg h0 h
    exact ⟨v, hof, hv, by rw [asSigned16_of_le (by omega), hv]⟩
  case neg =>
    obtain ⟨v, hof, hv⟩ := ofSigned16_of_neg h h1
    exact ⟨v, hof, hv, by rw [asSigned16_of_ge (by omega), hv, Int.add_sub_cancel]⟩

end Sys2Proof.Machine

/-! ### The writes of a threshold group and of the emissivity (R113, R115) -/

namespace Sys2Proof.Machine

/-- Inside a range the address a write uses is the one R96 defines. -/
theorem addrOf_eq_some_regAddr (b : RangeBase) (r : RangeName) (k : Fin r.length) :
    addrOf b r k = some (regAddr b r k) := by
  rw [regAddr, addrOf, if_pos k.isLt, Option.getD_some]

/-- Register writes of a range go to the addresses R96 defines. -/
theorem rangeWrites_addrOf (b : RangeBase) (r : RangeName) (ws : List (Fin r.length × Word)) :
    (rangeWrites b r ws).map (fun w => (some w.1, w.2)) = ws.map (fun w => (addrOf b r w.1, w.2)) := by
  simp only [rangeWrites, List.map_map, Function.comp_def, addrOf_eq_some_regAddr]

theorem Session.submit_opened {x : Session} (h : x.phase = .opened) (l : HostLayout) (b : RangeBase) (r : Request) :
    x.submit l b r = buildCommands l b x.id r := by
  rw [Session.submit, h]

/-- A write sequence in the operands of `ENCODE`: function byte 6 for each write, 255 for the commit. -/
theorem writeSequence_eq_encodes (id : Ident) (writes : List RegWrite) :
    writeSequence id writes = writes.map (fun w => .encode id 6 w.1 w.2) ++ [.encode id 255 0 0] := rfl

theorem Session.submit_toggle {x : Session} (h : x.phase = .opened) (l : HostLayout) (b : RangeBase) (g : ToggleName)
    (turnOn : Bool) (thresholds : OneOrTwo Rat) :
    x.submit l b (.toggle g turnOn thresholds)
      = .ok (writeSequence x.id (rangeWrites b g.range (toggleWrites l g turnOn thresholds))) := by
  rw [Session.submit_opened h, buildCommands]

theorem toggleWrites_off (l : HostLayout) (g : ToggleName) (thresholds : OneOrTwo Rat) :
    toggleWrites l g false thresholds = [((l.toggle g).flag, (l.toggle g).offValue)] := rfl

theorem toggleWrites_on (l : HostLayout) (g : ToggleName) (thresholds : OneOrTwo Rat) :
    toggleWrites l g true thresholds = ((l.toggle g).flag, (l.toggle g).onValue) :: thresholdWrites l g thresholds :=
  rfl

/-- A request with one value for a group with one threshold. -/
theorem thresholdWrites_one (l : HostLayout) (g : ToggleName) (thresholds : OneOrTwo Rat)
    (hgroup : (l.toggle g).thresholds.second = none) (hvalue : thresholds.second = none) :
    thresholdWrites l g thresholds = [((l.toggle g).thresholds.first,
      l.thresholdValue g (l.toggle g).thresholds.first thresholds.first)] := by
  simp [thresholdWrites, OneOrTwo.toList, hgroup, hvalue]

/-- A request with two values for a group with two thresholds. -/
theorem thresholdWrites_two (l : HostLayout) (g : ToggleName) (thresholds : OneOrTwo Rat)
    {k : Fin g.range.length} {v : Rat}
    (hgroup : (l.toggle g).thresholds.second = some k) (hvalue : thresholds.second = some v) :
    thresholdWrites l g thresholds = [((l.toggle g).thresholds.first,
      l.thresholdValue g (l.toggle g).thresholds.first thresholds.first), (k, l.thresholdValue g k v)] := by
  simp [thresholdWrites, OneOrTwo.toList, hgroup, hvalue]

/-- Settles O56: a toggle request becomes the write sequence of `toggleWrites`, which is the flag alone when turning
off, and the flag followed by `thresholdWrites` when turning on. -/
theorem toggleWriteSequence : Obligations.ToggleWriteSequence := by
  unfold Obligations.ToggleWriteSequence
  intro x l b g thresholds hopen
  refine ⟨regAddr b g.range (l.toggle g).flag, regAddr b g.range (l.toggle g).thresholds.first,
    addrOf_eq_some_regAddr b g.range _, addrOf_eq_some_regAddr b g.range _, ?off,
    fun hgroup hvalue => ?oneThreshold,
    fun k v hgroup hvalue => ⟨regAddr b g.range k, addrOf_eq_some_regAddr b g.range k, ?twoThresholds⟩⟩
  case off =>
    rw [Session.submit_toggle hopen, toggleWrites_off]; rfl
  case oneThreshold =>
    rw [Session.submit_toggle hopen, toggleWrites_on, thresholdWrites_one l g thresholds hgroup hvalue]; rfl
  case twoThresholds =>
    rw [Session.submit_toggle hopen, toggleWrites_on, thresholdWrites_two l g thresholds hgroup hvalue]; rfl

theorem checkedEmissivity_of_mem (l : HostLayout) {percent : Rat} (h0 : 0 ≤ percent) (h100 : percent ≤ 100) :
    checkedEmissivity l percent = .ok (l.emissivityWrites percent).toList := if_pos ⟨h0, h100⟩

theorem checkedEmissivity_of_not_mem (l : HostLayout) {percent : Rat} (h : percent < 0 ∨ 100 < percent) :
    checkedEmissivity l percent = .error .invalidPercentage :=
  if_neg fun ⟨h0, h100⟩ => h.elim (not_lt_of_ge h0) (not_lt_of_ge h100)

/-- Settles O57: the percentage passes the check exactly on [0, 100]; there the request is the write sequence of the
layout's register writes, whose addresses are those of R96, and outside it is the check's error. -/
theorem emissivityWriteChecksPercentage : Obligations.EmissivityWriteChecksPercentage := by
  unfold Obligations.EmissivityWriteChecksPercentage
  intro x l b percent hopen
  rw [Session.submit_opened hopen, buildCommands]
  refine ⟨fun h0 h100 => ⟨rangeWrites b .emissivity (l.emissivityWrites percent).toList,
    rangeWrites_addrOf b .emissivity _, ?accepted⟩, fun hout => ?rejected⟩
  case accepted => rw [checkedEmissivity_of_mem l h0 h100, ← writeSequence_eq_encodes]
  case rejected => rw [checkedEmissivity_of_not_mem l hout]

end Sys2Proof.Machine

/-! ### Transactions and the instructions they spell (R42 to R53) -/

namespace Sys2Proof

/-- The wire frame of a function code as an instruction: the three frame rows of the opcode table in one. -/
def FunctionCode.wireInstr : FunctionCode → Ident → Byte → Word → Word → Instr
  | .inquire => .inquire
  | .modify => .modify
  | .commitFlash => .commitFlash

theorem wireInstr_wf (fc : FunctionCode) (id : Ident) (addr : Byte) (v c : Word) :
    (fc.wireInstr id addr v c).wf = true := by cases fc <;> rfl

theorem encode_wireInstr (fc : FunctionCode) (id : Ident) (addr : Byte) (v c : Word) :
    encode (fc.wireInstr id addr v c) = .frame (Frame.ofFields id fc.toByte addr v c).toBytes := by
  cases fc <;> rfl

/-- A frame of a known function byte spells its wire frame, field by field. -/
theorem Frame.toInstr_of_known {f : Frame} {fc : FunctionCode} (h : f.function = fc.toByte) :
    f.toInstr = fc.wireInstr f.id f.address f.value f.crc := by
  rw [Frame.toInstr, FunctionCode.ofByte?_eq_some.2 h]
  cases fc <;> rfl

theorem Frame.toInstr_of_unknown {f : Frame} (h : FunctionCode.ofByte? f.function = none) : f.toInstr = .decode f := by
  rw [Frame.toInstr, h]

@[simp] theorem Frame.toInstr_ofFields (fc : FunctionCode) (id : Ident) (addr : Byte) (v c : Word) :
    (Frame.ofFields id fc.toByte addr v c).toInstr = fc.wireInstr id addr v c := by
  rw [Frame.toInstr_of_known rfl, ofFields_id, ofFields_address, ofFields_value, ofFields_crc]

theorem Frame.toInstr_wf (f : Frame) : f.toInstr.wf = true := by
  cases h : FunctionCode.ofByte? f.function with
  | none => rw [Frame.toInstr_of_unknown h]; rfl
  | some fc => rw [Frame.toInstr_of_known (FunctionCode.ofByte?_eq_some.1 h), wireInstr_wf]

theorem decode_encode_wireInstr (fc : FunctionCode) (id : Ident) (addr : Byte) (v c : Word) :
    decode (encode (fc.wireInstr id addr v c)) = .ok (fc.wireInstr id addr v c) := by
  rw [encode_wireInstr, decode_frame_toBytes, Frame.toInstr_ofFields]

/-- Settles O7: a wire frame is written from its fields and read back by `Frame.toInstr_ofFields`; a command's selector
leads back to its own operands, of which only the 16-bit words are split and joined again. -/
theorem decodeEncodeGivesInstructionBack : Obligations.DecodeEncodeGivesInstructionBack := by
  unfold Obligations.DecodeEncodeGivesInstructionBack
  intro i
  cases i with
  | inquire id addr v c => exact decode_encode_wireInstr .inquire id addr v c
  | modify id addr v c => exact decode_encode_wireInstr .modify id addr v c
  | commitFlash id addr v c => exact decode_encode_wireInstr .commitFlash id addr v c
  | crc16 init data => simp [encode, decode, decodeCommand, decodeCrc16]
  | encode id fn addr v => simp [encode, decode, decodeCommand, decodeEncode, Ident.toBytes]
  | decode f => simp [encode, decode, decodeCommand, decodeDecode]
  | feed chunk => rfl
  | drain => rfl
  | rmux addr => rfl

theorem encode_of_decodeCrc16 {ops : List Byte} {i : Instr} (h : decodeCrc16 ops = .ok i) :
    encode i = .command (0 :: ops) := by
  unfold decodeCrc16 at h
  split at h
  · cases h; simp [encode]
  · cases h

theorem encode_of_decodeEncode {ops : List Byte} {i : Instr} (h : decodeEncode ops = .ok i) :
    encode i = .command (1 :: ops) := by
  unfold decodeEncode at h
  split at h
  · cases h; simp [encode, Ident.toBytes]
  · cases h

theorem encode_of_decodeDecode {ops : List Byte} {i : Instr} (h : decodeDecode ops = .ok i) :
    encode i = .command (2 :: ops) := by
  unfold decodeDecode at h
  split at h
  next f hf => cases h; rw [← Frame.ofBytes?_eq_some.1 hf]; rfl
  next => cases h

theorem encode_of_decodeDrain {ops : List Byte} {i : Instr} (h : decodeDrain ops = .ok i) :
    encode i = .command (4 :: ops) := by
  unfold decodeDrain at h
  split at h
  · cases h; rfl
  · cases h

theorem encode_of_decodeRmux {ops : List Byte} {i : Instr} (h : decodeRmux ops = .ok i) :
    encode i = .command (5 :: ops) := by
  unfold decodeRmux at h
  split at h
  · cases h; rfl
  · cases h

/-- A command packet is the encoding of the instruction it spells. -/
theorem encode_of_decode_command {bytes : List Byte} {i : Instr} (h : decode (.command bytes) = .ok i) :
    encode i = .command bytes := by
  rcases bytes with _ | ⟨op, ops⟩
  · cases h
  rw [decode, decodeCommand] at h
  split at h
  next hop => rw [hop]; exact encode_of_decodeCrc16 h
  split at h
  next hop => rw [hop]; exact encode_of_decodeEncode h
  split at h
  next hop => rw [hop]; exact encode_of_decodeDecode h
  split at h
  next hop => cases h; rw [hop]; rfl
  split at h
  next hop => rw [hop]; exact encode_of_decodeDrain h
  split at h
  next hop => rw [hop]; exact encode_of_decodeRmux h
  next => cases h

/-- Settles O8: a command by `encode_of_decode_command`; a frame of a known function byte spells the wire frame of its
own fields, which are written back as they stood. -/
theorem encodeDecodeGivesPacketBack : Obligations.EncodeDecodeGivesPacketBack := by
  unfold Obligations.EncodeDecodeGivesPacketBack
  refine ⟨fun bytes i => encode_of_decode_command, fun f fc i hfunction h => ?_⟩
  rw [decode_frame_toBytes, Frame.toInstr_of_known hfunction] at h
  cases h
  rw [encode_wireInstr, ← hfunction, Frame.ofFields_self]

/-- Encoding keeps well-formedness, instruction by instruction (`Laws.SpelledWellFormed`). -/
theorem encode_wf (i : Instr) : (encode i).wf = i.wf := by
  cases i with
  | inquire id addr v c => exact Laws.SpelledWellFormed.inquire id addr v c
  | modify id addr v c => exact Laws.SpelledWellFormed.modify id addr v c
  | commitFlash id addr v c => exact Laws.SpelledWellFormed.commitFlash id addr v c
  | crc16 init data => exact Laws.SpelledWellFormed.crc16 init data
  | encode id fn addr v => exact Laws.SpelledWellFormed.encode id fn addr v
  | decode f => exact Laws.SpelledWellFormed.decode f
  | feed chunk => exact Laws.SpelledWellFormed.feed chunk
  | drain => exact Laws.SpelledWellFormed.drain
  | rmux addr => exact Laws.SpelledWellFormed.rmux addr

/-- A transaction that spells an instruction is well formed exactly when the instruction is. -/
theorem wf_of_decode {p : Packet} {i : Instr} (h : decode p = .ok i) : p.wf = i.wf := by
  cases p with
  | command bytes => rw [← encode_of_decode_command h, encode_wf]
  | frame bytes =>
    rw [decode] at h
    split at h
    next f hf =>
      cases h
      rw [← Frame.ofBytes?_eq_some.1 hf, Frame.toInstr_wf]; rfl
    next => cases h

theorem decodeCrc16_isOk {ops : List Byte} (h : 2 ≤ ops.length) : ∃ i, decodeCrc16 ops = .ok i := by
  rcases ops with _ | ⟨ih, _ | ⟨il, data⟩⟩
  · cases h
  · simp at h
  · exact ⟨_, rfl⟩

theorem decodeEncode_isOk {ops : List Byte} (h : ops.length = 8) : ∃ i, decodeEncode ops = .ok i := by
  rcases ops with _ | ⟨_, _ | ⟨_, _ | ⟨_, _ | ⟨_, _ | ⟨_, _ | ⟨_, _ | ⟨_, _ | ⟨_, _ | ⟨_, _⟩⟩⟩⟩⟩⟩⟩⟩⟩ <;> simp at h
  exact ⟨_, rfl⟩

theorem ofBytes?_of_length {bytes : List Byte} (h : bytes.length = 10) : ∃ f, Frame.ofBytes? bytes = some f := by
  rw [← Option.isSome_iff_exists, Frame.ofBytes?_isSome, h]; rfl

theorem decodeDecode_isOk {ops : List Byte} (h : ops.length = 10) : ∃ i, decodeDecode ops = .ok i := by
  obtain ⟨f, hf⟩ := ofBytes?_of_length h
  exact ⟨.decode f, by rw [decodeDecode, hf]⟩

theorem decodeDrain_isOk {ops : List Byte} (h : ops.isEmpty = true) : ∃ i, decodeDrain ops = .ok i := by
  rw [List.isEmpty_iff.1 h]; exact ⟨_, rfl⟩

theorem decodeRmux_isOk {ops : List Byte} (h : ops.length = 1) : ∃ i, decodeRmux ops = .ok i := by
  obtain ⟨addr, rfl⟩ := List.length_eq_one_iff.1 h
  exact ⟨_, rfl⟩

/-- Operand bytes of the length R52 asks for spell an instruction. -/
theorem decodeCommand_isOk {op : Byte} {ops : List Byte} (h : commandWf op ops = true) :
    ∃ i, decodeCommand (op :: ops) = .ok i := by
  rw [commandWf] at h
  rw [decodeCommand]
  split_ifs at h ⊢
  · exact decodeCrc16_isOk (of_decide_eq_true h)
  · exact decodeEncode_isOk (beq_iff_eq.1 (Bool.and_eq_true_iff.1 h).1)
  · exact decodeDecode_isOk (beq_iff_eq.1 h)
  · exact ⟨_, rfl⟩
  · exact decodeDrain_isOk h
  · exact decodeRmux_isOk (beq_iff_eq.1 h)

/-- A well-formed transaction spells an instruction. -/
theorem decode_isOk {p : Packet} (h : p.wf = true) : ∃ i, decode p = .ok i := by
  rcases p with (_ | ⟨op, ops⟩) | bytes
  · cases h
  · exact decodeCommand_isOk h
  · obtain ⟨f, hf⟩ := ofBytes?_of_length (beq_iff_eq.1 h)
    exact ⟨f.toInstr, by rw [decode, hf]⟩

/-- Settles O9: a well-formed transaction spells something (`decode_isOk`), and what a transaction spells is well formed
exactly when the transaction is (`wf_of_decode`). -/
theorem wellFormedPacketsAreTheDecoded : Obligations.WellFormedPacketsAreTheDecoded := by
  unfold Obligations.WellFormedPacketsAreTheDecoded
  intro p
  constructor
  · intro hwf
    obtain ⟨i, hi⟩ := decode_isOk hwf
    exact ⟨i, hi, wf_of_decode hi ▸ hwf⟩
  · rintro ⟨i, hi, hwf⟩
    rw [wf_of_decode hi, hwf]

/-- Settles O10: each of the six selectors is a number below 6. -/
theorem reservedSelectorsNameNothing : Obligations.ReservedSelectorsNameNothing := by
  unfold Obligations.ReservedSelectorsNameNothing
  intro op operands h
  have hne : ∀ n : Byte, n.toNat < 6 → op ≠ n := by rintro n hn rfl; omega
  rw [decode, decodeCommand, if_neg (hne 0 (by decide)), if_neg (hne 1 (by decide)), if_neg (hne 2 (by decide)),
    if_neg (hne 3 (by decide)), if_neg (hne 4 (by decide)), if_neg (hne 5 (by decide))]

/-- Settles O12: each word is decoded. -/
theorem sampleWordsDecode : Obligations.SampleWordsDecode := by
  unfold Obligations.SampleWordsDecode
  decide

end Sys2Proof

/-! ### The step and reset (R24, R53, R143 to R147) -/

namespace Sys2Proof.Machine

/-- Settles O1: the reset state's BUF is empty, so `DRAIN` finds an aligned one. -/
theorem resetLeavesBufferEmpty : Obligations.ResetLeavesBufferEmpty := by
  unfold Obligations.ResetLeavesBufferEmpty
  refine ⟨rfl, rfl, ?_⟩
  rw [exec_drain, execDrain_aligned rfl]; rfl

theorem step_reset {s : State} {rest : List Input} (h : s.port = .reset :: rest) :
    step s = .next (s.setPort rest).applyReset := by rw [step, h]

theorem step_packet {s : State} {p : Packet} {rest : List Input} (h : s.port = .packet p :: rest) :
    step s = runPacket p (s.setPort rest) := by rw [step, h]

theorem runPacket_ok {p : Packet} {i : Instr} (h : decode p = .ok i) (s : State) : runPacket p s = exec i s := by
  rw [runPacket, h]

theorem runPacket_error {p : Packet} {e : IllFormed} (h : decode p = .error e) (s : State) :
    runPacket p s = .refused (.illFormed e) := by rw [runPacket, h]

/-- Settles O2: `step_reset`, with the fields written out. -/
theorem resetInputOnlyEmptiesBuffer : Obligations.ResetInputOnlyEmptiesBuffer := by
  unfold Obligations.ResetInputOnlyEmptiesBuffer
  intro s rest h
  rw [step_reset h]; rfl

/-- Settles O3: nothing is taken from an empty port. -/
theorem idleBlockHoldsState : Obligations.IdleBlockHoldsState := by
  unfold Obligations.IdleBlockHoldsState
  intro s h
  rw [step, h]

/-- Settles O4: `step_packet`, then `runPacket_ok`. -/
theorem stepRunsDecodedInstruction : Obligations.StepRunsDecodedInstruction := by
  unfold Obligations.StepRunsDecodedInstruction
  intro s p rest i hport hi
  rw [step_packet hport, runPacket_ok hi]; rfl

theorem decode_of_decodeTableWord {nbits w : Nat} {i : Instr} (h : decodeTableWord nbits w = some i) :
    decode (tablePacket nbits w) = .ok i := by
  rw [decodeTableWord] at h
  split at h
  next j hj => cases h; exact hj
  next => cases h

/-- Settles O6: the word's packet stands first at the port, and taking it leaves the port as it was. -/
theorem fetchWordIsRunNext : Obligations.FetchWordIsRunNext := by
  unfold Obligations.FetchWordIsRunNext
  intro s nbits w i h
  rw [step_packet (s := s.withFetchWord nbits w) rfl, runPacket_ok (decode_of_decodeTableWord h)]; rfl

theorem exec_wireInstr (fc : FunctionCode) (id : Ident) (addr : Byte) (v c : Word) (s : State) :
    exec (fc.wireInstr id addr v c) s = .next (answerKnownFrame fc id addr v c s) := by cases fc <;> rfl

theorem exec_feed (chunk : List Byte) (s : State) : exec (.feed chunk) s = execFeed chunk s := rfl

/-- Only an `ENCODE` whose function byte is outside the closed set is refused. -/
theorem exec_refused_iff {i : Instr} {s : State} {r : Refusal} :
    exec i s = .refused r ↔ i.wf = false ∧ r = .illFormed .functionByte := by
  cases i with
  | inquire id addr v c => simp [exec, execInquire, Instr.wf]
  | modify id addr v c => simp [exec, execModify, Instr.wf]
  | commitFlash id addr v c => simp [exec, execCommitFlash, Instr.wf]
  | crc16 init data => simp [exec_crc16, Instr.wf]
  | encode id fn addr v =>
    rw [exec_encode, Instr.wf, knownFunctionByte_eq]
    cases h : FunctionCode.ofByte? fn with
    | none => simp [execEncode_unknown h, eq_comm]
    | some fc => simp [execEncode, h]
  | decode f => simp [exec_decode, execDecode, Instr.wf]
  | feed chunk => rcases execFeed_cases chunk s with ⟨_, e⟩ | ⟨_, e⟩ <;> simp [exec_feed, e, Instr.wf]
  | drain => rcases execDrain_cases s with ⟨_, e⟩ | ⟨_, e⟩ | ⟨_, _, e⟩ <;> simp [exec_drain, e, Instr.wf]
  | rmux addr => simp [exec_rmux, Instr.wf]

/-- Settles O5: bytes that spell no instruction are ill formed and refused at the interface; bytes that spell one are
as well formed as it is, and it is refused exactly when it is ill formed. -/
theorem illFormedTransactionsRefused : Obligations.IllFormedTransactionsRefused := by
  unfold Obligations.IllFormedTransactionsRefused
  intro s p rest hport
  rw [step_packet hport]
  cases hd : decode p with
  | error e =>
    have hwf : p.wf = false := by
      by_contra hne
      obtain ⟨i, hi⟩ := decode_isOk (Bool.eq_true_of_not_eq_false hne)
      rw [hd] at hi; cases hi
    simp [runPacket_error hd, hwf]
  | ok i => simp [runPacket_ok hd, exec_refused_iff, wf_of_decode hd]

/-- Settles O22: a byte none of the three is no function code, and `ENCODE` refuses it. -/
theorem encodeRefusesUnknownFunctionBytes : Obligations.EncodeRefusesUnknownFunctionBytes := by
  unfold Obligations.EncodeRefusesUnknownFunctionBytes
  intro s id fn addr v h3 h6 h255
  rw [exec_encode, execEncode_unknown (FunctionCode.ofByte?_eq_none.2 ⟨h3, h6, h255⟩)]

/-- Settles O50: a fault comes from a `FEED` that does not fit (`exec_fault_shape`), a refusal from an ill-formed
instruction (`exec_refused_iff`). -/
theorem stopsAreOverflowOrIllFormed : Obligations.StopsAreOverflowOrIllFormed := by
  unfold Obligations.StopsAreOverflowOrIllFormed
  intro i s
  refine ⟨fun f hf => ?_, fun r hr => (exec_refused_iff.1 hr).1⟩
  obtain ⟨chunk, rfl, hfits, -⟩ := exec_fault_shape hf
  rw [← Bool.not_eq_true, fits_iff] at hfits
  push Not at hfits
  obtain ⟨cap, hcap, hlt⟩ := hfits
  exact ⟨chunk, cap, rfl, hcap, hlt⟩

/-- Settles O49: a well-formed instruction is not refused, and one that fits does not fault. -/
theorem wellFormedInstructionsComplete : Obligations.WellFormedInstructionsComplete := by
  unfold Obligations.WellFormedInstructionsComplete
  intro i s hwf hfits
  cases h : exec i s with
  | next t => exact ⟨t, rfl⟩
  | fault f =>
    obtain ⟨chunk, rfl, hno, -⟩ := exec_fault_shape h
    simp [hfits chunk rfl] at hno
  | refused r => simp [(exec_refused_iff.1 h).1] at hwf

end Sys2Proof.Machine

/-! ### What one instruction leaves, and the invariants of the step (R13, R14, R131, R153) -/

namespace Sys2Proof.Machine

theorem reaches_iff {o : StepOutcome} {t : State} : Reaches o t ↔ o = .next t ∨ o = .fault (.bufferOverflow t) :=
  resume_eq_next

/-- What the frame decoder answers carries no frames, has a result only without an event, and raises one of the two
events of `DECODE`. -/
theorem frameVerdict_response (f : Frame) : (frameVerdict f).frames = [] ∧
    ((frameVerdict f).event ≠ .none → (frameVerdict f).result = .nothing) ∧
    ((frameVerdict f).event = .none ∨ (frameVerdict f).event = .checksumMismatch ∨
      (frameVerdict f).event = .unknownFunction) := by
  rcases frameVerdict_cases f with ⟨_, hv⟩ | ⟨_, _, hv⟩ | ⟨_, _, _, hv⟩ <;> simp [hv, Response.frames]

/-- A wire frame has a known function byte, so it never raises `UnknownFunction`. -/
theorem frameVerdict_ofFields_event (fc : FunctionCode) (id : Ident) (addr : Byte) (v c : Word) :
    (frameVerdict (Frame.ofFields id fc.toByte addr v c)).event = .none ∨
    (frameVerdict (Frame.ofFields id fc.toByte addr v c)).event = .checksumMismatch := by
  rcases frameVerdict_cases (Frame.ofFields id fc.toByte addr v c) with ⟨_, hv⟩ | ⟨_, hf, _⟩ | ⟨_, _, _, hv⟩
  · exact .inr (by rw [hv])
  · simp at hf
  · exact .inl (by rw [hv])

/-- What a response of an operation outside the reassembler may be (R131, R134). -/
structure PureResponse (i : Instr) (r : Response) : Prop where
  frames : r.frames = []
  result : r.event ≠ .none → r.result = .nothing
  event : mayRaise i r.event = true
  aligned : r.event ≠ .frameMisalignment

/-- A response with the event `None` meets every condition but that on its frames. -/
theorem PureResponse.of_none {i : Instr} {r : Result} (h : (Response.mk r .none).frames = []) :
    PureResponse i ⟨r, .none⟩ :=
  ⟨h, fun hne => absurd rfl hne, by simp [mayRaise], by simp⟩

theorem PureResponse.decode (f : Frame) : PureResponse (.decode f) (frameVerdict f) := by
  obtain ⟨hframes, hresult, hevent⟩ := frameVerdict_response f
  refine ⟨hframes, hresult, ?_, ?_⟩ <;> rcases hevent with h | h | h <;> simp [h, mayRaise]

theorem PureResponse.wireInstr (fc : FunctionCode) (id : Ident) (addr : Byte) (v c : Word) :
    PureResponse (fc.wireInstr id addr v c) (frameVerdict (Frame.ofFields id fc.toByte addr v c)) := by
  obtain ⟨hframes, hresult, -⟩ := frameVerdict_response (Frame.ofFields id fc.toByte addr v c)
  rcases frameVerdict_ofFields_event fc id addr v c with h | h
  · exact ⟨hframes, hresult, by cases fc <;> rw [h] <;> rfl, by simp [h]⟩
  · exact ⟨hframes, hresult, by cases fc <;> rw [h] <;> rfl, by simp [h]⟩

/-- `i` answers `r` in every state of a block with parameters `cfg`, changing nothing else. -/
def AnswersPurely (cfg : Config) (i : Instr) (r : Response) : Prop :=
  ∀ s : State, s.cfg = cfg → exec i s = .next (s.respond r.result r.event)

theorem AnswersPurely.wireInstr (cfg : Config) (fc : FunctionCode) (id : Ident) (addr : Byte) (v c : Word) :
    AnswersPurely cfg (fc.wireInstr id addr v c) (frameVerdict (Frame.ofFields id fc.toByte addr v c)) :=
  fun s _ => by rw [exec_wireInstr, answerKnownFrame_eq]

/-- R24: outside the reassembler a well-formed operation's response is fixed by its operands and the parameters. -/
theorem exists_pureResponse {i : Instr} (hpure : touchesBuf i = false) (hwf : i.wf = true) (cfg : Config) :
    ∃ r, PureResponse i r ∧ AnswersPurely cfg i r := by
  cases i with
  | inquire id addr v c => exact ⟨_, .wireInstr .inquire id addr v c, .wireInstr cfg .inquire id addr v c⟩
  | modify id addr v c => exact ⟨_, .wireInstr .modify id addr v c, .wireInstr cfg .modify id addr v c⟩
  | commitFlash id addr v c => exact ⟨_, .wireInstr .commitFlash id addr v c, .wireInstr cfg .commitFlash id addr v c⟩
  | crc16 init data => exact ⟨⟨.crc (crc16 data init), .none⟩, .of_none rfl, fun s _ => exec_crc16 init data s⟩
  | encode id fn addr v =>
    rw [Instr.wf, knownFunctionByte_eq, Option.isSome_iff_exists] at hwf
    obtain ⟨fc, hfc⟩ := hwf
    obtain rfl := FunctionCode.ofByte?_eq_some.1 hfc
    exact ⟨⟨.frame (buildFrame id fc.toByte addr v), .none⟩, .of_none rfl, fun s _ => execEncode_known fc id addr v s⟩
  | decode f => exact ⟨frameVerdict f, .decode f, fun _ _ => rfl⟩
  | feed chunk => cases hpure
  | drain => cases hpure
  | rmux addr =>
    exact ⟨⟨.selected (rmux cfg.rangeBase addr).1 (rmux cfg.rangeBase addr).2, .none⟩, .of_none rfl,
      fun s hs => by rw [← hs]; rfl⟩

/-- Everything an instruction can leave: a chunk appended or rejected (R80, R81), one of the three classes of `DRAIN`
(R84), or one response of an operation that leaves BUF alone. -/
inductive Leaves (s : State) : Instr → State → Prop where
  | appended {chunk : List Byte} (h : s.fits chunk.length = true) :
      Leaves s (.feed chunk) ((s.appendBuf chunk).answer .nothing)
  | overflowed {chunk : List Byte} (h : s.fits chunk.length = false) :
      Leaves s (.feed chunk) (s.raise .bufferOverflow)
  | drained (h : s.buf.length % 10 = 0) : Leaves s .drain (s.clearBuf.answer (.frames (cutFrames s.buf)))
  | discarded (h : s.buf.length % 2 = 1) : Leaves s .drain (s.clearBuf.respond (.frames []) .frameMisalignment)
  | kept (h : s.buf.length % 2 = 0) (h10 : s.buf.length % 10 ≠ 0) : Leaves s .drain (s.answer (.frames []))
  | answered {i : Instr} {r : Response} (hpure : touchesBuf i = false) (h : PureResponse i r) :
      Leaves s i (s.respond r.result r.event)

theorem leaves_feed {chunk : List Byte} {s t : State} (h : Reaches (exec (.feed chunk) s) t) :
    Leaves s (.feed chunk) t := by
  rcases execFeed_cases chunk s with ⟨hf, e⟩ | ⟨hf, e⟩ <;> rw [exec_feed, e] at h <;> cases h
  · exact .appended hf
  · exact .overflowed hf

theorem leaves_drain {s t : State} (h : Reaches (exec .drain s) t) : Leaves s .drain t := by
  rcases execDrain_cases s with ⟨h0, e⟩ | ⟨h1, e⟩ | ⟨h0, h10, e⟩ <;> rw [exec_drain, e] at h <;> cases h
  · exact .drained h0
  · exact .discarded h1
  · exact .kept h0 h10

/-- An instruction that reaches a state was not refused, so it is well formed. -/
theorem wf_of_reaches {i : Instr} {s t : State} (h : Reaches (exec i s) t) : i.wf = true := by
  by_contra hwf
  rw [exec_refused_iff.2 ⟨Bool.eq_false_of_not_eq_true hwf, rfl⟩] at h
  cases h

/-- The one case analysis behind the frame, the event table and the invariants. -/
theorem leaves_of_reaches {i : Instr} {s t : State} (h : Reaches (exec i s) t) : Leaves s i t := by
  cases hb : touchesBuf i with
  | false =>
    obtain ⟨r, hr, hexec⟩ := exists_pureResponse hb (wf_of_reaches h) s.cfg
    rw [hexec s rfl] at h
    cases h
    exact .answered hb hr
  | true =>
    cases i with
    | feed chunk => exact leaves_feed h
    | drain => exact leaves_drain h
    | _ => cases hb

theorem Leaves.cfg {i : Instr} {s t : State} (h : Leaves s i t) : t.cfg = s.cfg := by cases h <;> rfl

theorem Leaves.port {i : Instr} {s t : State} (h : Leaves s i t) : t.port = s.port := by cases h <;> rfl

theorem Leaves.out {i : Instr} {s t : State} (h : Leaves s i t) : ∃ r, t.out = s.out ++ [r] := by
  cases h <;> exact ⟨_, rfl⟩

theorem fits_zero_of_empty {s : State} (h : s.buf = []) : s.fits 0 = true := by
  rw [fits_iff]; simp [h]

/-- An instruction never brings BUF past its capacity: only a chunk that fits is appended. -/
theorem Leaves.fits {i : Instr} {s t : State} (h : Leaves s i t) (hs : s.fits 0 = true) : t.fits 0 = true := by
  cases h with
  | @appended chunk hf => exact fits_after (s := s) (m := chunk.length) rfl (by simp) hf
  | overflowed => exact hs
  | drained => exact fits_zero_of_empty rfl
  | discarded => exact fits_zero_of_empty rfl
  | kept => exact hs
  | answered => exact hs

theorem State.Inv.of_empty {s : State} (hc : s.cfg.Legal) (hb : s.buf = []) : s.Inv :=
  ⟨hc, fits_zero_of_empty hb⟩

/-- Settles O46: idling changes nothing, a reset empties BUF, and an instruction keeps the parameters and the bound
(`Leaves.cfg`, `Leaves.fits`), the overflow's state included. -/
theorem stepKeepsBufferWithinCapacity : Obligations.StepKeepsBufferWithinCapacity := by
  unfold Obligations.StepKeepsBufferWithinCapacity
  rintro s t ⟨hlegal, hfits⟩ hreach
  rcases step_cases s with ⟨_, e⟩ | ⟨rest, _, e⟩ | ⟨p, rest, _, e⟩ <;> rw [e] at hreach
  · cases hreach
    exact ⟨hlegal, hfits⟩
  · cases hreach
    exact .of_empty hlegal rfl
  · cases hd : decode p with
    | error why => rw [runPacket_error hd] at hreach; cases hreach
    | ok i =>
      rw [runPacket_ok hd] at hreach
      have hleaves := leaves_of_reaches hreach
      exact ⟨by rw [hleaves.cfg]; exact hlegal, hleaves.fits hfits⟩

/-- An instruction that feeds whole frames or nothing keeps BUF even-misaligned and delivers neither a frame nor
`FrameMisalignment`. -/
theorem Leaves.even_misaligned {i : Instr} {s t : State} (h : Leaves s i t)
    (heven : s.buf.length % 2 = 0) (hten : s.buf.length % 10 ≠ 0)
    (hwhole : ∀ chunk, i = .feed chunk → chunk.length % 10 = 0) :
    (t.buf.length % 2 = 0 ∧ t.buf.length % 10 ≠ 0) ∧
      ∃ r, t.out = s.out ++ [r] ∧ r.frames = [] ∧ r.event ≠ .frameMisalignment := by
  cases h with
  | @appended chunk =>
    have hchunk := hwhole chunk rfl
    have hlen : (s.buf ++ chunk).length = s.buf.length + chunk.length := List.length_append
    exact ⟨⟨by simp only [State.answer_buf, State.appendBuf_buf]; omega,
      by simp only [State.answer_buf, State.appendBuf_buf]; omega⟩, _, rfl, rfl, by simp⟩
  | overflowed => exact ⟨⟨heven, hten⟩, _, rfl, rfl, by simp⟩
  | drained h0 => exact absurd h0 hten
  | discarded h1 => omega
  | kept => exact ⟨⟨heven, hten⟩, _, rfl, rfl, by simp⟩
  | answered _ hr => exact ⟨⟨heven, hten⟩, _, rfl, hr.frames, hr.aligned⟩

/-- Settles O37: what stands first at the port is a packet that feeds whole frames or nothing, so one step is one
instruction to which `Leaves.even_misaligned` applies; the rest of the port stays. -/
theorem evenMisalignmentIsKeptByStep : Obligations.EvenMisalignmentIsKeptByStep := by
  unfold Obligations.EvenMisalignmentIsKeptByStep
  rintro s t ⟨heven, hten, hport⟩ hreach
  cases hp : s.port with
  | nil =>
    rw [idleBlockHoldsState s hp] at hreach
    cases hreach
    exact ⟨⟨heven, hten, hport⟩, .inl rfl⟩
  | cons x rest =>
    rw [hp] at hport
    obtain ⟨p, i, rfl, hd, hwhole⟩ := hport x List.mem_cons_self
    rw [step_packet hp, runPacket_ok hd] at hreach
    have hleaves := leaves_of_reaches hreach
    obtain ⟨⟨heven', hten'⟩, hresponse⟩ := hleaves.even_misaligned heven hten hwhole
    refine ⟨⟨heven', hten', ?_⟩, .inr hresponse⟩
    rw [hleaves.port]
    exact fun y hy => hport y (List.mem_cons_of_mem _ hy)

/-- Settles O47: BUF is empty after reset. -/
theorem resetMeetsInvariant : Obligations.ResetMeetsInvariant := by
  unfold Obligations.ResetMeetsInvariant
  exact ⟨fun _ hcfg => .of_empty hcfg rfl, .of_empty Config.default_legal rfl⟩

/-- Settles O48: the frame of `Leaves`, whose cases with another BUF are those of `FEED` and `DRAIN`. -/
theorem onlyReassemblerWritesBuffer : Obligations.OnlyReassemblerWritesBuffer := by
  unfold Obligations.OnlyReassemblerWritesBuffer
  intro i s t hreach
  have hleaves := leaves_of_reaches hreach
  refine ⟨hleaves.cfg, hleaves.port, hleaves.out, fun hbuf => ?_⟩
  cases hleaves with
  | appended | overflowed => exact .inl ⟨_, rfl⟩
  | drained | discarded | kept => exact .inr rfl
  | answered => exact absurd rfl hbuf

/-- Settles O51: case by case of `Leaves`, the event is one the table allows and BUF and result are as it says. -/
theorem eventsAsTabled : Obligations.EventsAsTabled := by
  unfold Obligations.EventsAsTabled
  intro i s t hreach
  cases leaves_of_reaches hreach with
  | appended | drained | kept => exact ⟨_, rfl, rfl, by simp, by simp⟩
  | overflowed => exact ⟨_, rfl, rfl, fun _ => ⟨rfl, rfl⟩, by simp⟩
  | discarded => exact ⟨_, rfl, rfl, by simp, fun _ => ⟨rfl, rfl⟩⟩
  | @answered i r _ hr =>
    refine ⟨r, rfl, hr.event, fun h => ⟨rfl, hr.result ?_⟩, fun h => absurd h hr.aligned⟩
    rcases h with h | h | h <;> simp [h]

/-- Settles O52: the response of `exists_pureResponse` is the same in both states, since the parameters are. -/
theorem pureOperationsIgnoreState : Obligations.PureOperationsIgnoreState := by
  unfold Obligations.PureOperationsIgnoreState
  intro i s u hpure hwf hcfg
  obtain ⟨r, -, hexec⟩ := exists_pureResponse hpure hwf u.cfg
  exact ⟨r, hexec s hcfg, hexec u rfl⟩

end Sys2Proof.Machine

/-! ### The CRC: masking, chaining, linearity, residue (R64 to R67) -/

namespace Sys2Proof.Machine

theorem crcRoundsWide_succ (n a : Nat) : crcRoundsWide (n + 1) a = crcRoundsWide n (crcRoundWide a) := rfl

theorem ofNat_shiftLeft (a n : Nat) : BitVec.ofNat 16 (a <<< n) = BitVec.ofNat 16 a <<< n := by
  apply BitVec.eq_of_toNat_eq
  simp [Nat.shiftLeft_eq]

/-- Masking commutes with a round: the bit that decides and the bits that stay are those of the masked word. -/
theorem ofNat_crcRoundWide (a : Nat) : BitVec.ofNat 16 (crcRoundWide a) = crcRound (BitVec.ofNat 16 a) := by
  have hmsb : (BitVec.ofNat 16 a).msb = a.testBit 15 := by
    rw [BitVec.msb_eq_getLsbD_last, BitVec.getLsbD_ofNat]; rfl
  rw [crcRoundWide, crcRound, hmsb]
  split
  · rw [BitVec.ofNat_xor, ofNat_shiftLeft, BitVec.ofNat_toNat, BitVec.setWidth_eq]
  · exact ofNat_shiftLeft a 1

theorem ofNat_crcRoundsWide (n a : Nat) : BitVec.ofNat 16 (crcRoundsWide n a) = crcRounds n (BitVec.ofNat 16 a) := by
  induction n generalizing a with
  | zero => rfl
  | succ n ih => rw [crcRoundsWide_succ, ih, ofNat_crcRoundWide, crcRounds_succ]

theorem ofNat_absorbWide (acc : Word) (b : Byte) : BitVec.ofNat 16 (acc.toNat ^^^ (b.toNat <<< 8)) = absorb acc b := by
  rw [BitVec.ofNat_xor, BitVec.ofNat_toNat, BitVec.setWidth_eq, ofNat_shiftLeft, BitVec.ofNat_toNat, absorb]

/-- Settles O16: masking commutes with every round, so one mask after the eighth is as good as one after each. -/
theorem maskingPerByteIsTheSameStep : Obligations.MaskingPerByteIsTheSameStep := by
  unfold Obligations.MaskingPerByteIsTheSameStep
  intro acc b
  rw [crcStepMaskedPerByte, ofNat_crcRoundsWide, ofNat_absorbWide, crcStep]

/-- Settles O17: a fold over a concatenation goes on from the first part's result (`crc16_append`). -/
theorem crc16ChainsThroughInit : Obligations.Crc16ChainsThroughInit := by
  unfold Obligations.Crc16ChainsThroughInit
  intro u v w data rest init c h
  obtain rfl : crc16 data init = c := by simpa [exec_crc16] using h
  exact ⟨_, exec_crc16 _ _ _, by rw [exec_crc16, crc16_append]⟩

theorem absorb_xor (a c : Word) (b d : Byte) : absorb (a ^^^ c) (b ^^^ d) = absorb a b ^^^ absorb c d := by
  simp only [absorb, BitVec.setWidth_xor, BitVec.shiftLeft_xor_distrib]
  ac_rfl

theorem crcStep_xor (a c : Word) (b d : Byte) : crcStep (a ^^^ c) (b ^^^ d) = crcStep a b ^^^ crcStep c d := by
  rw [crcStep, absorb_xor, crcRounds_xor, crcStep, crcStep]

theorem crc16_zipWith_xor {p q : List Byte} (h : p.length = q.length) (i j : Word) :
    crc16 (List.zipWith (· ^^^ ·) p q) (i ^^^ j) = crc16 p i ^^^ crc16 q j := by
  induction p generalizing q i j with
  | nil =>
    obtain rfl := List.length_eq_zero_iff.1 h.symm
    rfl
  | cons b p ih =>
    cases q with
    | nil => cases h
    | cons d q => rw [List.zipWith_cons_cons, crc16_cons, crcStep_xor, ih (Nat.succ.inj h), crc16_cons, crc16_cons]

/-- Settles O18: the step by `crcStep_xor`, the whole CRC by induction along both sequences. -/
theorem crcIsLinear : Obligations.CrcIsLinear := by
  unfold Obligations.CrcIsLinear
  exact ⟨crcStep_xor, crcStep_zero_zero, fun _ _ i j h => crc16_zipWith_xor h i j⟩

/-- While the set bits stay below the top, rounds only shift. -/
theorem crcRounds_of_lt (n : Nat) (a : Word) (h : a.toNat * 2 ^ n < 2 ^ 16) : crcRounds n a = a <<< n := by
  induction n generalizing a with
  | zero => simp
  | succ n ih =>
    have hpow : a.toNat * 2 ^ 1 ≤ a.toNat * 2 ^ (n + 1) :=
      Nat.mul_le_mul_left _ (Nat.pow_le_pow_right (by decide) (by omega))
    have hmsb : a.msb = false := by rw [BitVec.msb_eq_decide]; simp; omega
    have hround : crcRound a = a <<< 1 := by rw [crcRound, hmsb]; rfl
    have hnat : (a <<< 1).toNat = a.toNat * 2 := by rw [BitVec.toNat_shiftLeft, Nat.shiftLeft_eq]; omega
    rw [crcRounds_succ, hround, ih, ← BitVec.shiftLeft_add, Nat.add_comm]
    rw [hnat, Nat.mul_assoc, ← Nat.pow_succ']
    exact h

/-- A word's own two bytes, high byte first, take its accumulator to zero (R67): the first cancels the high half, eight
rounds move the low half up, and the second cancels it there. -/
theorem crc16_own_bytes (a : Word) : crc16 [highByte a, lowByte a] a = 0 := by
  have hlow : crcStep a (highByte a) = (lowByte a).setWidth 16 <<< 8 := by
    rw [crcStep, absorb_highByte, crcRounds_of_lt]
    have := (lowByte a).isLt
    rw [BitVec.toNat_setWidth, Nat.mod_eq_of_lt (by omega)]
    omega
  rw [crc16_cons, hlow, crc16_cons, crcStep, absorb, BitVec.xor_self]
  decide

/-- Settles O19: the sequence leaves its CRC in the accumulator, which its own two bytes then cancel. -/
theorem crcOverItselfLeavesZero : Obligations.CrcOverItselfLeavesZero := by
  unfold Obligations.CrcOverItselfLeavesZero
  intro bytes init
  rw [crc16_append, crc16_own_bytes]

/-- Only zero rounds to zero: a shifted-out top bit leaves the polynomial's bit 0 behind. -/
theorem crcRound_eq_zero {a : Word} (h : crcRound a = 0) : a = 0 := by
  rw [crcRound] at h
  split at h
  · have hbit := congrArg (fun x : Word => x.getLsbD 0) h
    simp [crcPoly] at hbit
  next hmsb =>
    rw [BitVec.msb_eq_decide] at hmsb
    have hnat := congrArg BitVec.toNat h
    rw [BitVec.toNat_shiftLeft, Nat.shiftLeft_eq] at hnat
    apply BitVec.eq_of_toNat_eq
    simp at hmsb hnat ⊢
    omega

theorem crcRounds_eq_zero {n : Nat} {a : Word} (h : crcRounds n a = 0) : a = 0 := by
  induction n generalizing a with
  | zero => exact h
  | succ n ih => exact crcRound_eq_zero (ih h)

/-- A byte sequence followed by a word, high byte first, has CRC 0 exactly when the word is the sequence's CRC: by
linearity the difference of the two words goes through sixteen rounds that only zero brings to zero. -/
theorem crc16_append_word_eq_zero (bytes : List Byte) (init c : Word) :
    crc16 (bytes ++ [highByte c, lowByte c]) init = 0 ↔ crc16 bytes init = c := by
  rw [crc16_append]
  generalize crc16 bytes init = a
  constructor
  · intro h
    have hdiff : crc16 [0, 0] (a ^^^ c) = 0 := by
      have hlin := crc16_zipWith_xor (p := [highByte c, lowByte c]) (q := [highByte c, lowByte c]) rfl a c
      rw [h, crc16_own_bytes, BitVec.xor_self] at hlin
      simpa using hlin
    have hzero : ∀ x : Word, crcStep x 0 = 0 → x = 0 := fun x hx => by
      simpa [absorb] using crcRounds_eq_zero hx
    exact BitVec.xor_eq_zero_iff.1 (hzero _ (hzero _ hdiff))
  · rintro rfl
    exact crc16_own_bytes a

/-! ### The frame codec (R53, R60, R72 to R78) -/

theorem exec_decode_out (f : Frame) (s : State) :
    exec (.decode f) s = .next { s with out := s.out ++ [frameVerdict f] } := rfl

/-- `DECODE` answers `ChecksumMismatch` exactly when the CRC check fails. -/
theorem frameVerdict_eq_mismatch (f : Frame) : frameVerdict f = ⟨.nothing, .checksumMismatch⟩ ↔ frameCrc f ≠ f.crc := by
  rw [ne_eq, ← crcOk_iff]
  rcases frameVerdict_cases f with ⟨hc, hv⟩ | ⟨hc, _, hv⟩ | ⟨_, hc, _, hv⟩ <;> simp [hc, hv]

theorem exec_decode_eq_mismatch (f : Frame) (s : State) :
    exec (.decode f) s = .next { s with out := s.out ++ [⟨.nothing, .checksumMismatch⟩] } ↔ frameCrc f ≠ f.crc := by
  rw [← frameVerdict_eq_mismatch, exec_decode_out]
  simp

/-- R67 on a frame: its two CRC bytes are its CRC field, high byte first. -/
theorem crc16_toBytes_eq_zero (f : Frame) : crc16 f.toBytes codecCrcInit = 0 ↔ frameCrc f = f.crc := by
  rw [frameCrc, ← crc16_append_word_eq_zero f.body codecCrcInit f.crc, Frame.crc, highByte_be16, lowByte_be16,
    Frame.toBytes_eq]

/-- Settles O20: both checks compare the body's CRC with the CRC field. -/
theorem frameCheckIsZeroResidue : Obligations.FrameCheckIsZeroResidue := by
  unfold Obligations.FrameCheckIsZeroResidue
  intro s f
  rw [exec_decode_eq_mismatch, ne_eq, ← crc16_toBytes_eq_zero]
  rfl

theorem frameVerdict_of_known {f : Frame} {fc : FunctionCode} (h : frameCrc f = f.crc) (hf : f.function = fc.toByte) :
    frameVerdict f = ⟨.decoded fc f.address f.value, .none⟩ := by
  rw [frameVerdict, if_pos ((crcOk_iff f).2 h), hf, FunctionCode.ofByte?_toByte]

theorem frameVerdict_of_unknown {f : Frame} (h : frameCrc f = f.crc) (hf : FunctionCode.ofByte? f.function = none) :
    frameVerdict f = ⟨.nothing, .unknownFunction⟩ := by
  rw [frameVerdict, if_pos ((crcOk_iff f).2 h), hf]

/-- Settles O23: the CRC check, then the function byte against the three codes. -/
theorem decodeChecksCrcThenFunction : Obligations.DecodeChecksCrcThenFunction := by
  unfold Obligations.DecodeChecksCrcThenFunction
  intro s f
  rw [exec_decode_out]
  congr 4
  split_ifs with hcrc h3 h6 h255
  · exact (frameVerdict_eq_mismatch f).2 hcrc
  all_goals replace hcrc := not_not.1 hcrc
  · exact frameVerdict_of_known (fc := .inquire) hcrc h3
  · exact frameVerdict_of_known (fc := .modify) hcrc h6
  · exact frameVerdict_of_known (fc := .commitFlash) hcrc h255
  · exact frameVerdict_of_unknown hcrc (FunctionCode.ofByte?_eq_none.2 ⟨h3, h6, h255⟩)

/-- The frame `ENCODE` builds passes `DECODE` with the fields it was built from (R75). -/
theorem frameVerdict_buildFrame (id : Ident) (fc : FunctionCode) (addr : Byte) (v : Word) :
    frameVerdict (buildFrame id fc.toByte addr v) = ⟨.decoded fc addr v, .none⟩ := by
  rw [frameVerdict_of_known ((crcOk_iff _).1 (crcOk_buildFrame id fc.toByte addr v)) rfl, buildFrame,
    Frame.ofFields_address, Frame.ofFields_value]

/-- Settles O24: `ENCODE` answers the built frame, whose verdict is `frameVerdict_buildFrame`. -/
theorem decodeUndoesEncode : Obligations.DecodeUndoesEncode := by
  unfold Obligations.DecodeUndoesEncode
  intro s u id fc addr v
  exact ⟨_, exec_encode_toByte id fc addr v s, by rw [exec_decode_out, frameVerdict_buildFrame]⟩

/-- Settles O25: the one word is the CRC of the first eight bytes, which the CRC field is no part of. -/
theorem eachBodyHasOneCrc : Obligations.EachBodyHasOneCrc := by
  unfold Obligations.EachBodyHasOneCrc
  intro s f
  have hpasses : ∀ c : Word, exec (.decode { f with crcHigh := highByte c, crcLow := lowByte c }) s
      ≠ .next { s with out := s.out ++ [⟨.nothing, .checksumMismatch⟩] } ↔ frameCrc f = c := fun c => by
    rw [ne_eq, exec_decode_eq_mismatch, not_not, Frame.crc, be16_high_low]; rfl
  exact ⟨frameCrc f, (hpasses _).2 rfl, fun c hc => ((hpasses c).1 hc).symm⟩

/-- The answer to a wire frame, by its CRC word. -/
theorem exec_wireInstr_out (fc : FunctionCode) (id : Ident) (addr : Byte) (v c : Word) (s : State) :
    exec (fc.wireInstr id addr v c) s = .next { s with out := s.out ++
      [if crc16 [id.b0, id.b1, id.b2, id.b3, fc.toByte, addr, highByte v, lowByte v] codecCrcInit = c
       then ⟨.decoded fc addr v, .none⟩ else ⟨.nothing, .checksumMismatch⟩] } := by
  rw [exec_wireInstr, answerKnownFrame, crcOk, frameCrc_ofFields, Frame.ofFields_crc]
  simp only [beq_iff_eq]
  split <;> rfl

/-- Settles O26: the three rows are the wire frames of the three function codes. -/
theorem wireFramesAnswerTheirFields : Obligations.WireFramesAnswerTheirFields := by
  unfold Obligations.WireFramesAnswerTheirFields
  intro s id addr v c
  exact ⟨exec_wireInstr_out .inquire id addr v c s, exec_wireInstr_out .modify id addr v c s,
    exec_wireInstr_out .commitFlash id addr v c s⟩

/-- The instruction a frame spells is answered as `DECODE` answers its bytes, known function byte or not. -/
theorem exec_toInstr (f : Frame) (s : State) : exec f.toInstr s = exec (.decode f) s := by
  cases h : FunctionCode.ofByte? f.function with
  | none => rw [Frame.toInstr_of_unknown h]
  | some fc =>
    have hfc := FunctionCode.ofByte?_eq_some.1 h
    rw [Frame.toInstr_of_known hfc, exec_wireInstr, answerKnownFrame_eq, ← hfc, Frame.ofFields_self]; rfl

/-- Settles O27: a frame packet spells `Frame.toInstr` of its bytes, which `exec_toInstr` reads as `DECODE`. -/
theorem framePacketActsAsDecode : Obligations.FramePacketActsAsDecode := by
  unfold Obligations.FramePacketActsAsDecode
  intro s f rest hport
  rw [step_packet hport, runPacket_ok (decode_frame_toBytes f), exec_toInstr]; rfl

/-- Settles O28: past the CRC check the verdict reads function byte, address and value only. -/
theorem identifierOnlyEntersCrc : Obligations.IdentifierOnlyEntersCrc := by
  unfold Obligations.IdentifierOnlyEntersCrc
  intro s f g hf hg hfunction haddress hvalue
  rw [exec_decode_out, exec_decode_out, frameVerdict, frameVerdict, if_pos ((crcOk_iff f).2 hf),
    if_pos ((crcOk_iff g).2 hg), hfunction, haddress, hvalue]

end Sys2Proof.Machine

/-! ### The frame patterns (R50) -/

namespace Sys2Proof

/-- A mask of `w` ones at bit `k` and a pattern of `w` bits there compare one field of the word. -/
theorem and_mask_eq_iff (x : BitVec 80) {w : Nat} (k : Nat) (c : BitVec w) (hk : k + w ≤ 80) :
    x &&& ((BitVec.allOnes w).setWidth 80 <<< k) = c.setWidth 80 <<< k ↔ x.extractLsb' k w = c := by
  constructor
  · intro h
    apply BitVec.eq_of_getLsbD_eq
    intro i hi
    have hbit := congrArg (fun y : BitVec 80 => y.getLsbD (k + i)) h
    simpa [hi, show k + i < 80 by omega] using hbit
  · rintro rfl
    apply BitVec.eq_of_getLsbD_eq
    intro i hi
    by_cases hlow : i < k
    · simp [hlow]
    · by_cases hin : i - k < w
      · simp [hlow, hi, hin, show k + (i - k) = i by omega]
      · simp [hlow, hin]

/-- A field above the last byte does not see it. -/
theorem extractLsb'_append_byte_above {n : Nat} (x : BitVec n) (b : Byte) (k len : Nat) :
    (x ++ b).extractLsb' (k + 8) len = x.extractLsb' k len :=
  BitVec.extractLsb'_append_eq_of_le (Nat.le_add_left 8 k)

/-- A field at the low end takes the last byte whole. -/
theorem extractLsb'_append_byte_low {n : Nat} (x : BitVec n) (b : Byte) (len : Nat) :
    (x ++ b).extractLsb' 0 (len + 8) = x.extractLsb' 0 len ++ b := by
  apply BitVec.eq_of_getLsbD_eq
  intro i hi
  by_cases h : i < 8
  · simp [BitVec.getLsbD_append, BitVec.getElem_append, h, hi]
  · simp [BitVec.getLsbD_append, BitVec.getElem_append, h, hi]

theorem append_byte_inj {n : Nat} {x y : BitVec n} {b c : Byte} : x ++ b = y ++ c ↔ x = y ∧ b = c := by
  refine ⟨fun h => ⟨?_, ?_⟩, by rintro ⟨rfl, rfl⟩; rfl⟩
  · simpa [BitVec.extractLsb'_append_eq_of_le] using congrArg (BitVec.extractLsb' 8 n) h
  · simpa [BitVec.extractLsb'_append_eq_right] using congrArg (BitVec.extractLsb' 0 8) h

theorem Frame.toBits_function (f : Frame) : f.toBits.extractLsb' 40 8 = f.function := by
  rw [toBits, extractLsb'_append_byte_above (n := 72) _ _ 32, extractLsb'_append_byte_above (n := 64) _ _ 24,
    extractLsb'_append_byte_above (n := 56) _ _ 16, extractLsb'_append_byte_above (n := 48) _ _ 8,
    extractLsb'_append_byte_above (n := 40) _ _ 0]
  exact BitVec.extractLsb'_append_eq_right

theorem Frame.toBits_fields (f : Frame) :
    f.toBits.extractLsb' 16 32 = f.function ++ f.address ++ f.valueHigh ++ f.valueLow := by
  rw [toBits, extractLsb'_append_byte_above (n := 72) _ _ 8, extractLsb'_append_byte_above (n := 64) _ _ 0,
    extractLsb'_append_byte_low (n := 56) _ _ 24, extractLsb'_append_byte_low (n := 48) _ _ 16,
    extractLsb'_append_byte_low (n := 40) _ _ 8]
  rw [show (f.id.b0 ++ f.id.b1 ++ f.id.b2 ++ f.id.b3 ++ f.function).extractLsb' 0 8 = f.function from
    BitVec.extractLsb'_append_eq_right]

/-- The rows that test the function byte alone. -/
theorem FramePattern.matches_function {p : FramePattern} {b : Byte} (f : Frame)
    (hmask : p.mask = (BitVec.allOnes 8).setWidth 80 <<< 40) (hpattern : p.pattern = b.setWidth 80 <<< 40) :
    p.Matches f ↔ f.function = b := by
  rw [Matches, hmask, hpattern, and_mask_eq_iff _ _ _ (by decide), Frame.toBits_function]

theorem be16_eq_zero {high low : Byte} : be16 high low = 0 ↔ high = 0 ∧ low = 0 :=
  append_byte_inj (y := 0#8) (c := 0#8)

/-- The row that tests four bytes. -/
theorem FramePattern.matches_commitWellFormed (f : Frame) :
    commitWellFormed.Matches f ↔ f.function = 255 ∧ f.address = 0 ∧ f.value = 0 := by
  have hrow : commitWellFormed.Matches f ↔ f.toBits.extractLsb' 16 32 = 255#8 ++ 0#8 ++ 0#8 ++ 0#8 :=
    and_mask_eq_iff f.toBits 16 (255#8 ++ 0#8 ++ 0#8 ++ 0#8) (by decide)
  rw [hrow, Frame.toBits_fields, append_byte_inj, append_byte_inj, append_byte_inj, Frame.value, be16_eq_zero]
  simp only [and_assoc]
  rfl

theorem wireInstr_inj {fc fc' : FunctionCode} {id id' : Ident} {addr addr' : Byte} {v v' c c' : Word} :
    fc.wireInstr id addr v c = fc'.wireInstr id' addr' v' c' ↔
      fc = fc' ∧ id = id' ∧ addr = addr' ∧ v = v' ∧ c = c' := by
  cases fc <;> cases fc' <;> simp [FunctionCode.wireInstr]

theorem wireInstr_ne_decode (fc : FunctionCode) (id : Ident) (addr : Byte) (v c : Word) (f : Frame) :
    fc.wireInstr id addr v c ≠ .decode f := by cases fc <;> simp [FunctionCode.wireInstr]

/-- The kind of a frame is its function byte, and every operand is the frame's own field. -/
theorem Frame.toInstr_eq_wireInstr {f : Frame} {fc : FunctionCode} {id : Ident} {addr : Byte} {v c : Word} :
    f.toInstr = fc.wireInstr id addr v c ↔
      f.function = fc.toByte ∧ f.id = id ∧ f.address = addr ∧ f.value = v ∧ f.crc = c := by
  cases h : FunctionCode.ofByte? f.function with
  | none =>
    have hne : f.function ≠ fc.toByte := fun he => by simp [he] at h
    simp [toInstr_of_unknown h, hne, (wireInstr_ne_decode fc id addr v c f).symm]
  | some fc' =>
    have hfc := FunctionCode.ofByte?_eq_some.1 h
    have hbyte : fc'.toByte = fc.toByte ↔ fc' = fc := by
      rw [← FunctionCode.ofByte?_eq_some, FunctionCode.ofByte?_toByte, Option.some.injEq, eq_comm]
    rw [toInstr_of_known hfc, wireInstr_inj, hfc, hbyte]

theorem exists_decode_eq_wireInstr (f : Frame) (fc : FunctionCode) :
    (∃ id addr v c, decode (.frame f.toBytes) = .ok (fc.wireInstr id addr v c)) ↔ f.function = fc.toByte := by
  simp [Frame.toInstr_eq_wireInstr]

theorem exists_decode_eq_zeroCommit (f : Frame) :
    (∃ id c, decode (.frame f.toBytes) = .ok (FunctionCode.commitFlash.wireInstr id 0 0 c)) ↔
      f.function = 255 ∧ f.address = 0 ∧ f.value = 0 := by
  simp [Frame.toInstr_eq_wireInstr, FunctionCode.toByte]

/-- Settles O11: on the one side each row compares a field of the frame's 80 bits, on the other the decoder reads the
kind from the function byte and keeps the fields; both say the same of function byte, address and value. -/
theorem framePatternsTellFrameKinds : Obligations.FramePatternsTellFrameKinds := by
  unfold Obligations.FramePatternsTellFrameKinds
  intro f
  exact ⟨(FramePattern.matches_function (p := .inquire) f (by decide) (by decide)).trans
      (exists_decode_eq_wireInstr f .inquire).symm,
    (FramePattern.matches_function (p := .modify) f (by decide) (by decide)).trans
      (exists_decode_eq_wireInstr f .modify).symm,
    (FramePattern.matches_function (p := .commitRecognised) f (by decide) (by decide)).trans
      (exists_decode_eq_wireInstr f .commitFlash).symm,
    (FramePattern.matches_commitWellFormed f).trans (exists_decode_eq_zeroCommit f).symm⟩

end Sys2Proof

/-! ### The reassembler, one operation (R31, R80 to R83) -/

namespace Sys2Proof.Machine

theorem exec_feed_fits {chunk : List Byte} {s : State} (h : s.fits chunk.length = true) :
    exec (.feed chunk) s = .next { s with buf := s.buf ++ chunk, out := s.out ++ [⟨.nothing, .none⟩] } := by
  rw [exec_feed, execFeed_fits h]; rfl

theorem exec_feed_overflow {chunk : List Byte} {s : State} (h : s.fits chunk.length = false) :
    exec (.feed chunk) s = .fault (.bufferOverflow { s with out := s.out ++ [⟨.nothing, .bufferOverflow⟩] }) := by
  rw [exec_feed, execFeed, h]; rfl

/-- Settles O29: the two premises are the two values of `State.fits`. -/
theorem feedAppendsOrOverflows : Obligations.FeedAppendsOrOverflows := by
  unfold Obligations.FeedAppendsOrOverflows
  refine fun s chunk => ⟨fun hfits => exec_feed_fits ((fits_iff s _).2 fun cap hcap => hfits cap hcap),
    fun cap hcap hlt => exec_feed_overflow ?_⟩
  rw [← Bool.not_eq_true, fits_iff]
  intro hfits
  have := hfits cap hcap
  omega

/-- Settles O30: what fits together fits piece by piece (`fits_mono`, `fits_after`), and appending is associative. -/
theorem feedsConcatenate : Obligations.FeedsConcatenate := by
  unfold Obligations.FeedsConcatenate
  intro s a b hfits
  have hempty : s.fits ([] : List Byte).length = true := fits_mono hfits (Nat.zero_le _)
  have ha : s.fits a.length = true := fits_mono hfits (Nat.le_add_right _ _)
  have hboth : s.fits (a ++ b).length = true := by rw [List.length_append]; exact hfits
  refine ⟨by rw [exec_feed_fits hempty, List.append_nil], ?_⟩
  have hb : ({ s with buf := s.buf ++ a, out := s.out ++ [⟨.nothing, .none⟩] } : State).fits b.length = true :=
    fits_after (s := s) rfl List.length_append hfits
  exact ⟨_, _, by rw [runProgram_cons, exec_feed_fits ha, andThen_next, runProgram_cons, exec_feed_fits hb]; rfl,
    exec_feed_fits hboth, List.append_assoc _ _ _⟩

/-- The lengths at which `DRAIN` has nothing to cut and nothing to discard. -/
def QuietLength (n : Nat) : Prop := n = 0 ∨ (n % 2 = 0 ∧ n % 10 ≠ 0)

/-- At a quiet length `DRAIN` only answers that there is no frame. -/
theorem exec_drain_quiet {s : State} (h : QuietLength s.buf.length) :
    exec .drain s = .next { s with out := s.out ++ [⟨.frames [], .none⟩] } := by
  rcases h with hzero | ⟨heven, hten⟩
  · have hnil : s.buf = [] := List.length_eq_zero_iff.1 hzero
    rw [exec_drain, execDrain_aligned (by rw [hzero])]
    simp [State.clearBuf, State.setBuf, State.answer, State.respond, cutFrames, hnil]
  · rw [exec_drain, execDrain_even heven hten]; rfl

theorem exec_drain_odd {s : State} (h : s.buf.length % 2 = 1) :
    exec .drain s = .next { s with buf := [], out := s.out ++ [⟨.frames [], .frameMisalignment⟩] } := by
  rw [exec_drain, execDrain_odd h]; rfl

theorem exec_drain_aligned {s : State} (h : s.buf.length % 10 = 0) :
    exec .drain s = .next { s with buf := [], out := s.out ++ [⟨.frames (cutFrames s.buf), .none⟩] } := by
  rw [exec_drain, execDrain_aligned h]; rfl

/-- Settles O32: the first `DRAIN` leaves BUF empty or even-misaligned, both quiet lengths. -/
theorem secondDrainFindsNothing : Obligations.SecondDrainFindsNothing := by
  unfold Obligations.SecondDrainFindsNothing
  intro s
  by_cases heven : s.buf.length % 2 = 0 ∧ s.buf.length % 10 ≠ 0
  · exact ⟨_, _, exec_drain_quiet (.inr heven), exec_drain_quiet (.inr heven), rfl, fun _ => rfl,
      fun hn => absurd heven hn⟩
  · rcases Nat.mod_two_eq_zero_or_one s.buf.length with h0 | h1
    · exact ⟨_, _, exec_drain_aligned (by omega), exec_drain_quiet (.inl rfl), rfl, fun he => absurd he heven,
        fun _ => rfl⟩
    · exact ⟨_, _, exec_drain_odd h1, exec_drain_quiet (.inl rfl), rfl, fun he => absurd he heven, fun _ => rfl⟩

/-! ### The reassembler, programs (R27, R87 to R90, R153, R154) -/

theorem runProgram_append (p q : List Instr) (s : State) :
    runProgram (p ++ q) s = andThen (runProgram p s) (runProgram q) := by
  induction p generalizing s with
  | nil => rfl
  | cons i p ih =>
    rw [List.cons_append, runProgram_cons, runProgram_cons]
    cases exec i s with
    | next t => exact ih t
    | fault f => rfl
    | refused r => rfl

@[simp] theorem newResponses_append (s : State) (b : List Byte) (rs : List Response) :
    newResponses s { s with buf := b, out := s.out ++ rs } = rs := List.drop_left

@[simp] theorem fedBytes_feed (chunk : List Byte) (rest : List Instr) :
    fedBytes (.feed chunk :: rest) = chunk ++ fedBytes rest := rfl

@[simp] theorem fedBytes_drain (rest : List Instr) : fedBytes (.drain :: rest) = fedBytes rest := rfl

/-- A program whose `DRAIN`s all fall at quiet lengths only appends what it feeds, and delivers no frame and no
event. -/
theorem runProgram_quiet {prog : List Instr} {s : State} (hfits : s.fits (fedBytes prog).length = true)
    (hprog : ∀ i ∈ prog, i = .drain ∨ ∃ chunk, i = .feed chunk)
    (hdrain : ∀ before after, prog = before ++ .drain :: after →
      QuietLength (s.buf.length + (fedBytes before).length)) :
    ∃ rs, runProgram prog s = .next { s with buf := s.buf ++ fedBytes prog, out := s.out ++ rs } ∧
      ∀ r ∈ rs, r = ⟨.nothing, .none⟩ ∨ r = ⟨.frames [], .none⟩ := by
  induction prog generalizing s with
  | nil => exact ⟨[], by simp [fedBytes], by simp⟩
  | cons i rest ih =>
    have hrest : ∀ j ∈ rest, j = .drain ∨ ∃ chunk, j = .feed chunk := fun j hj => hprog j (List.mem_cons_of_mem _ hj)
    rcases hprog i List.mem_cons_self with rfl | ⟨chunk, rfl⟩
    · have hquiet : QuietLength s.buf.length := hdrain [] rest rfl
      obtain ⟨rs, hrun, hrs⟩ := @ih { s with out := s.out ++ [⟨.frames [], .none⟩] } hfits hrest
        fun before after h => hdrain (.drain :: before) after (by rw [h]; rfl)
      refine ⟨⟨.frames [], .none⟩ :: rs, ?_, List.forall_mem_cons.2 ⟨.inr rfl, hrs⟩⟩
      rw [runProgram_cons, exec_drain_quiet hquiet, andThen_next, hrun]
      simp
    · rw [fedBytes_feed, List.length_append] at hfits
      have hchunk : s.fits chunk.length = true := fits_mono hfits (Nat.le_add_right _ _)
      obtain ⟨rs, hrun, hrs⟩ := @ih { s with buf := s.buf ++ chunk, out := s.out ++ [⟨.nothing, .none⟩] }
        (fits_after (s := s) rfl List.length_append hfits) hrest
        fun before after h => by
          have hlen := hdrain (.feed chunk :: before) after (by rw [h]; rfl)
          rwa [fedBytes_feed, List.length_append, ← Nat.add_assoc, ← List.length_append] at hlen
      refine ⟨⟨.nothing, .none⟩ :: rs, ?_, List.forall_mem_cons.2 ⟨.inl rfl, hrs⟩⟩
      rw [runProgram_cons, exec_feed_fits hchunk, andThen_next, hrun]
      simp

/-- The answer of a `DRAIN` and the BUF it leaves depend on BUF alone. -/
theorem exists_drain_answer (buf : List Byte) : ∃ (b : List Byte) (r : Response),
    ∀ s : State, s.buf = buf → exec .drain s = .next { s with buf := b, out := s.out ++ [r] } := by
  by_cases heven : buf.length % 2 = 0 ∧ buf.length % 10 ≠ 0
  · exact ⟨buf, _, by rintro s rfl; exact exec_drain_quiet (.inr heven)⟩
  · rcases Nat.mod_two_eq_zero_or_one buf.length with h0 | h1
    · have hten : buf.length % 10 = 0 := by omega
      exact ⟨[], ⟨.frames (cutFrames buf), .none⟩, by rintro s rfl; exact exec_drain_aligned hten⟩
    · exact ⟨[], _, by rintro s rfl; exact exec_drain_odd h1⟩

/-- Settles O33: every `DRAIN` before the last falls at a quiet length, so by `runProgram_quiet` BUF then holds the
whole stream, as it does after one `FEED`; the last `DRAIN` sees BUF alone. -/
theorem chunkingDoesNotMatter : Obligations.ChunkingDoesNotMatter := by
  unfold Obligations.ChunkingDoesNotMatter
  intro s prog hempty hfits hprog hdrain
  obtain ⟨rs, hrun, -⟩ := runProgram_quiet hfits hprog fun before after h => by
    rw [hempty, List.length_nil, Nat.zero_add]
    exact hdrain before after h
  obtain ⟨b, r, hlast⟩ := exists_drain_answer (s.buf ++ fedBytes prog)
  have hchunked : runProgram (prog ++ [.drain]) s = .next { s with buf := b, out := s.out ++ rs ++ [r] } := by
    rw [runProgram_append, hrun, andThen_next, runProgram_cons, hlast _ rfl]; rfl
  have hwhole : runProgram [.feed (fedBytes prog), .drain] s
      = .next { s with buf := b, out := s.out ++ [⟨.nothing, .none⟩] ++ [r] } := by
    rw [runProgram_cons, exec_feed_fits hfits, andThen_next, runProgram_cons, hlast _ rfl]; rfl
  exact ⟨_, _, r, hchunked, hwhole, rfl, List.getLast?_concat, List.getLast?_concat⟩

theorem fedBytes_length_mod_ten {prog : List Instr}
    (hprog : ∀ i ∈ prog, i = .drain ∨ ∃ chunk, i = .feed chunk ∧ chunk.length % 10 = 0) :
    (fedBytes prog).length % 10 = 0 := by
  induction prog with
  | nil => rfl
  | cons i rest ih =>
    have hrest := ih fun j hj => hprog j (List.mem_cons_of_mem _ hj)
    rcases hprog i List.mem_cons_self with rfl | ⟨chunk, rfl, hchunk⟩
    · exact hrest
    · rw [fedBytes_feed, List.length_append]
      omega

/-- Settles O36: whole frames added to an even-misaligned length leave it so, hence every `DRAIN` falls at a quiet
length. -/
theorem evenMisalignmentNeverHeals : Obligations.EvenMisalignmentNeverHeals := by
  unfold Obligations.EvenMisalignmentNeverHeals
  intro s prog hcap heven hten hprog
  have hfits : s.fits (fedBytes prog).length = true := by rw [fits_iff, hcap]; simp
  obtain ⟨rs, hrun, hrs⟩ := runProgram_quiet hfits
    (fun i hi => (hprog i hi).imp_right fun ⟨chunk, hi, _⟩ => ⟨chunk, hi⟩)
    fun before after h => by
      have hbefore : (fedBytes before).length % 10 = 0 :=
        fedBytes_length_mod_ten fun i hi => hprog i (h ▸ List.mem_append_left _ hi)
      exact .inr ⟨by omega, by omega⟩
  exact ⟨_, hrun, rfl, by rwa [newResponses_append]⟩

theorem push_fits {chunk : List Byte} {s : State} (h : s.fits chunk.length = true) :
    push chunk s = exec .drain { s with buf := s.buf ++ chunk, out := s.out ++ [⟨.nothing, .none⟩] } := by
  rw [push, exec_feed_fits h]; rfl

/-- An odd number of bytes pushed into an empty BUF is lost at once. -/
theorem push_odd {chunk : List Byte} {s : State} (hempty : s.buf = []) (hfits : s.fits chunk.length = true)
    (hodd : chunk.length % 2 = 1) :
    push chunk s = .next { s with
      buf := [], out := s.out ++ [⟨.nothing, .none⟩, ⟨.frames [], .frameMisalignment⟩] } := by
  rw [push_fits hfits, exec_drain_odd (by rwa [hempty])]
  simp

/-- A quiet number of bytes pushed into an empty BUF stays there. -/
theorem push_quiet {chunk : List Byte} {s : State} (hempty : s.buf = []) (hfits : s.fits chunk.length = true)
    (hquiet : QuietLength chunk.length) :
    push chunk s = .next { s with buf := chunk, out := s.out ++ [⟨.nothing, .none⟩, ⟨.frames [], .none⟩] } := by
  rw [push_fits hfits, exec_drain_quiet (by rwa [hempty]), hempty]
  simp

/-- Settles O34: three bytes pushed into an empty BUF make an odd length and are discarded, twice; the last four make an
even one and stay. -/
theorem frameSplitAtOddOffsetIsLost : Obligations.FrameSplitAtOddOffsetIsLost := by
  unfold Obligations.FrameSplitAtOddOffsetIsLost
  intro s f hempty hfits
  have hlater : ∀ (n : Nat) (out : List Response), n ≤ 10 → ({ s with buf := [], out := out } : State).fits n = true :=
    fun n out hn => fits_mono (fits_after (s := s) (m := 0) rfl (by rw [hempty]; rfl) (by rwa [Nat.zero_add])) hn
  rw [push_odd hempty (fits_mono hfits (by simp)) (by simp), andThen_next,
    push_odd rfl (hlater 3 _ (by decide)) (by simp), andThen_next,
    push_quiet rfl (hlater 4 _ (by decide)) (.inr ⟨by simp, by simp⟩)]
  simp

/-- Settles O35: at an odd length `DRAIN` discards; at an even one, one byte more makes it odd. -/
theorem forcedDiscardEmptiesBuffer : Obligations.ForcedDiscardEmptiesBuffer := by
  unfold Obligations.ForcedDiscardEmptiesBuffer
  intro s b _ hfits
  split
  next hodd =>
    exact ⟨_, by rw [runProgram_cons, exec_drain_odd hodd]; rfl, rfl, List.getLast?_concat⟩
  next heven =>
    have hlen : (s.buf ++ [b]).length % 2 = 1 := by rw [List.length_append, List.length_singleton]; omega
    exact ⟨_, by rw [runProgram_cons, exec_feed_fits hfits, andThen_next, runProgram_cons, exec_drain_odd hlen]; rfl,
      rfl, List.getLast?_concat⟩

/-- A full, even-misaligned BUF rejects every byte and drains nothing, however often the host tries. -/
theorem runResuming_stuck {prog : List Instr} {s : State} {cap : Nat} (hcap : s.cfg.bufCap = some cap)
    (hfull : s.buf.length = cap) (heven : cap % 2 = 0) (hten : cap % 10 ≠ 0)
    (hprog : ∀ i ∈ prog, i = .drain ∨ ∃ chunk, chunk ≠ [] ∧ i = .feed chunk) :
    ∃ rs, runResuming prog s = .next { s with out := s.out ++ rs } ∧
      ∀ r ∈ rs, r = ⟨.frames [], .none⟩ ∨ r = ⟨.nothing, .bufferOverflow⟩ := by
  induction prog generalizing s with
  | nil => exact ⟨[], by simp, by simp⟩
  | cons i rest ih =>
    have hrest : ∀ out, ∃ rs, runResuming rest { s with out := out } = .next { s with out := out ++ rs } ∧
        ∀ r ∈ rs, r = ⟨.frames [], .none⟩ ∨ r = ⟨.nothing, .bufferOverflow⟩ := fun out =>
      @ih { s with out := out } hcap hfull fun j hj => hprog j (List.mem_cons_of_mem _ hj)
    rcases hprog i List.mem_cons_self with rfl | ⟨chunk, hne, rfl⟩
    · obtain ⟨rs, hrun, hrs⟩ := hrest (s.out ++ [⟨.frames [], .none⟩])
      refine ⟨⟨.frames [], .none⟩ :: rs, ?_, List.forall_mem_cons.2 ⟨.inl rfl, hrs⟩⟩
      have hquiet : QuietLength s.buf.length := .inr (by rw [hfull]; exact ⟨heven, hten⟩)
      rw [runResuming_cons, exec_drain_quiet hquiet, resume_next, andThen_next, hrun, List.append_assoc,
        List.singleton_append]
    · obtain ⟨rs, hrun, hrs⟩ := hrest (s.out ++ [⟨.nothing, .bufferOverflow⟩])
      have hover : s.fits chunk.length = false := by
        have := List.length_pos_iff.2 hne
        rw [← Bool.not_eq_true, fits_iff]
        intro hfits
        have := hfits cap hcap
        omega
      refine ⟨⟨.nothing, .bufferOverflow⟩ :: rs, ?_, List.forall_mem_cons.2 ⟨.inr rfl, hrs⟩⟩
      rw [runResuming_cons, exec_feed_overflow hover, resume_overflow, andThen_next, hrun, List.append_assoc,
        List.singleton_append]

/-- Settles O38: `runResuming_stuck`, with what was added to the responses read off. -/
theorem fullMisalignedBufferStaysStuck : Obligations.FullMisalignedBufferStaysStuck := by
  unfold Obligations.FullMisalignedBufferStaysStuck
  intro s prog cap hcap hfull heven hten hprog
  obtain ⟨rs, hrun, hrs⟩ := runResuming_stuck hcap hfull heven hten hprog
  exact ⟨_, hrun, rfl, by rwa [newResponses_append]⟩

@[simp] theorem drainedBytes_nil : drainedBytes [] = [] := rfl

@[simp] theorem drainedBytes_cons (r : Response) (rs : List Response) :
    drainedBytes (r :: rs) = r.frames.flatMap Frame.toBytes ++ drainedBytes rs := by simp [drainedBytes]

/-- Only `FEED` feeds. -/
theorem fedBytes_pure {i : Instr} (h : touchesBuf i = false) (rest : List Instr) :
    fedBytes (i :: rest) = fedBytes rest := by
  cases i with
  | feed chunk => cases h
  | _ => rfl

/-- One instruction that completes without `FrameMisalignment` moves bytes and loses none: what its response carries
away and what it leaves in BUF are what BUF held and what it fed. -/
theorem exec_conserves_bytes {i : Instr} {s t : State} (h : exec i s = .next t) : ∃ r : Response,
    t.out = s.out ++ [r] ∧ (r.event ≠ .frameMisalignment → ∀ rest,
      r.frames.flatMap Frame.toBytes ++ (t.buf ++ fedBytes rest) = s.buf ++ fedBytes (i :: rest)) := by
  cases leaves_of_reaches (reaches_iff.2 (.inl h)) with
  | @appended chunk => exact ⟨_, rfl, fun _ rest => List.append_assoc s.buf chunk (fedBytes rest)⟩
  | overflowed hf => rw [exec_feed_overflow hf] at h; cases h
  | drained h0 => exact ⟨_, rfl, fun _ rest => congrArg (· ++ fedBytes rest) (cutFrames_aligned h0)⟩
  | discarded => exact ⟨_, rfl, fun hevent => absurd rfl hevent⟩
  | kept => exact ⟨_, rfl, fun _ _ => rfl⟩
  | @answered i r hpure hr =>
    refine ⟨r, rfl, fun _ rest => ?_⟩
    rw [hr.frames, fedBytes_pure hpure]; rfl

theorem runProgram_conserves_bytes {prog : List Instr} {s t : State} (h : runProgram prog s = .next t) :
    ∃ rs, t.out = s.out ++ rs ∧ ((∀ r ∈ rs, r.event ≠ .frameMisalignment) →
      drainedBytes rs ++ t.buf = s.buf ++ fedBytes prog) := by
  induction prog generalizing s with
  | nil =>
    cases h
    exact ⟨[], by simp, fun _ => by simp [fedBytes]⟩
  | cons i rest ih =>
    rw [runProgram_cons] at h
    obtain ⟨u, hstep, hrest⟩ := andThen_eq_next.1 h
    obtain ⟨r, hr, hfirst⟩ := exec_conserves_bytes hstep
    obtain ⟨rs, hrs, hothers⟩ := ih hrest
    refine ⟨r :: rs, by rw [hrs, hr, List.append_assoc]; rfl, fun hevents => ?_⟩
    rw [List.forall_mem_cons] at hevents
    rw [drainedBytes_cons, List.append_assoc, hothers hevents.2, hfirst hevents.1]

/-- Settles O39: `runProgram_conserves_bytes`, by induction along the program. -/
theorem bytesLeaveInOrder : Obligations.BytesLeaveInOrder := by
  unfold Obligations.BytesLeaveInOrder
  intro prog s t hrun hevents
  obtain ⟨rs, hout, hbytes⟩ := runProgram_conserves_bytes hrun
  have hnew : newResponses s t = rs := by rw [newResponses, hout, List.drop_left]
  rw [hnew] at hevents ⊢
  exact hbytes hevents

end Sys2Proof.Machine

/-! ### The multiplexer under a legal table (R33, R94 to R99) -/

namespace Sys2Proof.Machine

/-- An address lies in a range exactly at an index inside the range's length. -/
theorem inRange_iff_index {b : RangeBase} {addr : Byte} {r : RangeName} :
    inRange b addr r = true ↔ ∃ k, k < r.length ∧ addr.toNat = (b.base r).toNat + k := by
  rw [inRange_iff, RangeBase.past, RangeBase.first]
  exact ⟨fun ⟨hfirst, hpast⟩ => ⟨addr.toNat - (b.base r).toNat, by omega, by omega⟩,
    fun ⟨k, hk, ha⟩ => ⟨by omega, by omega⟩⟩

/-- Under disjoint ranges the search finds the one range that holds the address, in whatever order it tries them. -/
theorem selectRange_of_index {b : RangeBase} (hd : b.Disjoint) {addr : Byte} {r : RangeName} {k : Nat}
    {l : List RangeName} (hr : r ∈ l) (hk : k < r.length) (ha : addr.toNat = (b.base r).toNat + k) :
    selectRange b addr l = (some r, k) := by
  have hin : inRange b addr r = true := inRange_iff_index.2 ⟨k, hk, ha⟩
  rcases selectRange_cases b addr l with ⟨q, _, hq, e⟩ | ⟨hnone, _⟩
  · obtain rfl := inRange_unique hd hin hq
    rw [e, ha, RangeBase.first, Nat.add_sub_cancel_left]
  · simp [hnone r hr] at hin

theorem rmux_of_index {b : RangeBase} (hd : b.Disjoint) {addr : Byte} {r : RangeName} {k : Nat} (hk : k < r.length)
    (ha : addr.toNat = (b.base r).toNat + k) : rmux b addr = (some r, k) :=
  selectRange_of_index hd r.mem_all hk ha

theorem selectRange_of_none {b : RangeBase} {addr : Byte} (l : List RangeName) (h : ∀ r, inRange b addr r = false) :
    selectRange b addr l = (none, 0) := by
  rcases selectRange_cases b addr l with ⟨r, _, hr, _⟩ | ⟨_, e⟩
  · simp [h r] at hr
  · exact e

/-- A legal table reaches no address past 91. -/
theorem inRange_of_undefined {b : RangeBase} (hw : b.Within) {addr : Byte} (ha : 92 ≤ addr.toNat) (r : RangeName) :
    inRange b addr r = false := by
  rw [← Bool.not_eq_true, inRange_iff]
  have := hw r r.mem_all
  omega

/-- Settles O41: a defined address is covered, at an index that disjointness makes the only one; an address past 91 is
in no range. -/
theorem rmuxSelectsTheOneRange : Obligations.RmuxSelectsTheOneRange := by
  unfold Obligations.RmuxSelectsTheOneRange
  rintro s addr ⟨hwithin, hdisjoint, hcovering⟩
  constructor
  · intro hdefined
    obtain ⟨r, _, hr⟩ := hcovering addr.toNat (by omega)
    obtain ⟨k, hk, ha⟩ := inRange_iff_index.1 ((inRange_iff _ addr r).2 hr)
    have hrmux := rmux_of_index hdisjoint hk ha
    refine ⟨r, k, hk, ha, by rw [exec_rmux, hrmux], fun q j hj hq => ?_⟩
    have hpair : (some q, j) = (some r, k) := (rmux_of_index hdisjoint hj hq).symm.trans hrmux
    simpa using hpair
  · intro hundefined
    have hnone : rmux s.cfg.rangeBase addr = (none, 0) :=
      selectRange_of_none _ (inRange_of_undefined hwithin hundefined)
    rw [exec_rmux, hnone]

/-- Settles O42: every order tries every range, and finds the only one that holds the address or none. -/
theorem rmuxOrderDoesNotMatter : Obligations.RmuxOrderDoesNotMatter := by
  unfold Obligations.RmuxOrderDoesNotMatter
  rintro b l ⟨_, hdisjoint, _⟩ hperm addr
  by_cases h : ∃ r, inRange b addr r = true
  · obtain ⟨r, hr⟩ := h
    obtain ⟨k, hk, ha⟩ := inRange_iff_index.1 hr
    rw [selectRange_of_index hdisjoint (hperm.mem_iff.2 r.mem_all) hk ha, rmux_of_index hdisjoint hk ha]
  · have hnone : ∀ r, inRange b addr r = false := fun r => Bool.eq_false_of_not_eq_true fun hr => h ⟨r, hr⟩
    rw [rmux, selectRange_of_none l hnone, selectRange_of_none _ hnone]

/-- Under a table inside 0..91 the sum of R96 does not wrap. -/
theorem addrOf_of_lt {b : RangeBase} (hw : b.Within) {r : RangeName} {k : Nat} (hk : k < r.length) :
    ∃ a : Byte, addrOf b r k = some a ∧ a.toNat = (b.base r).toNat + k := by
  have hpast := hw r r.mem_all
  rw [RangeBase.past, RangeBase.first] at hpast
  exact ⟨_, if_pos hk, by rw [BitVec.toNat_ofNat, Nat.mod_eq_of_lt (by omega)]⟩

/-- What the multiplexer selects is a range that holds the address, and the offset in it. -/
theorem index_of_rmux {b : RangeBase} {addr : Byte} {r : RangeName} {k : Nat} (h : rmux b addr = (some r, k)) :
    k < r.length ∧ addr.toNat = (b.base r).toNat + k := by
  rcases selectRange_cases b addr RangeName.all with ⟨q, _, hq, e⟩ | ⟨_, e⟩
  · obtain ⟨j, hj, ha⟩ := inRange_iff_index.1 hq
    rw [rmux, e, ha, RangeBase.first, Nat.add_sub_cancel_left] at h
    cases h
    exact ⟨hj, ha⟩
  · rw [rmux, e] at h
    cases h

/-- Settles O43: `addr_of` is base plus index without wrapping, and the multiplexer finds base plus index at that index
and nowhere else. -/
theorem addressOfInvertsRmux : Obligations.AddressOfInvertsRmux := by
  unfold Obligations.AddressOfInvertsRmux
  rintro b r k ⟨hwithin, hdisjoint, _⟩
  refine ⟨fun hk => ?_, fun a h => ?_, fun hk => if_neg (Nat.not_lt.2 hk)⟩
  · obtain ⟨a, hsome, ha⟩ := addrOf_of_lt hwithin hk
    exact ⟨a, hsome, ha, rmux_of_index hdisjoint hk ha⟩
  · obtain ⟨hk, ha⟩ := index_of_rmux h
    obtain ⟨a', hsome, ha'⟩ := addrOf_of_lt hwithin hk
    rw [hsome, BitVec.eq_of_toNat_eq (ha'.trans ha.symm)]

/-- The default table's answer at index `k` of a range whose base and length are known. -/
theorem selected_listingOrder {addr : Byte} (r : RangeName) (first length : Nat) {k : Nat}
    (hfirst : (RangeBase.listingOrder.base r).toNat = first) (hlength : r.length = length)
    (hk : k < length) (ha : addr.toNat = first + k) :
    Result.selected (some r) k
      = .selected (rmux RangeBase.listingOrder addr).1 (rmux RangeBase.listingOrder addr).2 := by
  rw [rmux_of_index RangeBase.listingOrder_legal.2.1 (hlength ▸ hk) (hfirst ▸ ha)]

/-- Settles O44: the default table is legal, so each address is answered by the range it lies in. -/
theorem defaultTableAnswers : Obligations.DefaultTableAnswers := by
  unfold Obligations.DefaultTableAnswers
  intro s addr hdefault
  rw [exec_rmux, hdefault]
  congr 5
  symm
  refine ite_eq_iff'.2 ⟨fun h => selected_listingOrder .linReal 0 30 rfl rfl (by omega) (by omega), fun h30 => ?_⟩
  refine ite_eq_iff'.2 ⟨fun h => selected_listingOrder .linCorr 30 30 rfl rfl (by omega) (by omega), fun h60 => ?_⟩
  refine ite_eq_iff'.2 ⟨fun h => selected_listingOrder .segCount 60 1 rfl rfl (by omega) (by omega), fun h61 => ?_⟩
  refine ite_eq_iff'.2 ⟨fun h => selected_listingOrder .adCal 61 4 rfl rfl (by omega) (by omega), fun h65 => ?_⟩
  refine ite_eq_iff'.2 ⟨fun h => selected_listingOrder .tempRange 65 2 rfl rfl (by omega) (by omega), fun h67 => ?_⟩
  refine ite_eq_iff'.2 ⟨fun h => selected_listingOrder .vdacCal 67 5 rfl rfl (by omega) (by omega), fun h72 => ?_⟩
  refine ite_eq_iff'.2 ⟨fun h => selected_listingOrder .emissivity 72 2 rfl rfl (by omega) (by omega), fun h74 => ?_⟩
  refine ite_eq_iff'.2 ⟨fun h => selected_listingOrder .curCal 74 4 rfl rfl (by omega) (by omega), fun h78 => ?_⟩
  refine ite_eq_iff'.2 ⟨fun h => selected_listingOrder .peakHold 78 4 rfl rfl (by omega) (by omega), fun h82 => ?_⟩
  refine ite_eq_iff'.2 ⟨fun h => selected_listingOrder .lowAlarm 82 3 rfl rfl (by omega) (by omega), fun h85 => ?_⟩
  refine ite_eq_iff'.2 ⟨fun h => selected_listingOrder .highAlarm 85 3 rfl rfl (by omega) (by omega), fun h88 => ?_⟩
  refine ite_eq_iff'.2 ⟨fun h => selected_listingOrder .respTime 88 1 rfl rfl (by omega) (by omega), fun h89 => ?_⟩
  refine ite_eq_iff'.2 ⟨fun h => selected_listingOrder .devId 89 2 rfl rfl (by omega) (by omega), fun h91 => ?_⟩
  refine ite_eq_iff'.2 ⟨fun h => selected_listingOrder .password 91 1 rfl rfl (by omega) (by omega), fun h92 => ?_⟩
  have hnone : rmux RangeBase.listingOrder addr = (none, 0) :=
    selectRange_of_none _ (inRange_of_undefined RangeBase.listingOrder_legal.1 (by omega))
  rw [hnone]

/-- The addresses of a range. -/
def rangeAddresses (b : RangeBase) (r : RangeName) : Finset Nat := Finset.Ico (b.first r) (b.past r)

theorem mem_rangeAddresses {b : RangeBase} {r : RangeName} {a : Nat} :
    a ∈ rangeAddresses b r ↔ b.first r ≤ a ∧ a < b.past r := Finset.mem_Ico

theorem card_rangeAddresses (b : RangeBase) (r : RangeName) : (rangeAddresses b r).card = r.length := by
  rw [rangeAddresses, Nat.card_Ico, RangeBase.past, Nat.add_sub_cancel_left]

/-- Disjoint ranges have 92 addresses together. -/
theorem card_all_rangeAddresses {b : RangeBase} (hd : b.Disjoint) :
    (RangeName.all.toFinset.biUnion (rangeAddresses b)).card = 92 := by
  rw [Finset.card_biUnion]
  · simp only [card_rangeAddresses]
    decide
  · intro r _ q _ hne
    refine Finset.disjoint_left.2 fun a hr hq => ?_
    rw [mem_rangeAddresses] at hr hq
    have := hd r r.mem_all q q.mem_all hne
    omega

/-- Settles O45: disjoint ranges have as many addresses as there are defined ones, 92, so inside 0..91 they are all of
them. -/
theorem disjointRangesTileTheAddresses : Obligations.DisjointRangesTileTheAddresses := by
  unfold Obligations.DisjointRangesTileTheAddresses
  refine ⟨by decide, fun b hwithin hdisjoint a ha => ?_⟩
  have hsubset : RangeName.all.toFinset.biUnion (rangeAddresses b) ⊆ Finset.range 92 := by
    intro x hx
    obtain ⟨r, -, hr⟩ := Finset.mem_biUnion.1 hx
    exact Finset.mem_range.2 (lt_of_lt_of_le (mem_rangeAddresses.1 hr).2 (hwithin r r.mem_all))
  have hall := Finset.eq_of_subset_of_card_le hsubset (by rw [card_all_rangeAddresses hdisjoint, Finset.card_range])
  obtain ⟨r, hr, hin⟩ := Finset.mem_biUnion.1 (hall ▸ Finset.mem_range.2 ha)
  exact ⟨r, List.mem_toFinset.1 hr, mem_rangeAddresses.1 hin⟩

end Sys2Proof.Machine

/-! ### The host's requests (R109, R112, R119) -/

namespace Sys2Proof.Machine

/-- Settles O58: a closed session submits nothing. -/
theorem closedSessionIssuesNothing : Obligations.ClosedSessionIssuesNothing := by
  unfold Obligations.ClosedSessionIssuesNothing
  intro x l b r hclosed
  rw [Session.submit, hclosed]

theorem RegisterMap.apply_segmentCount (l : HostLayout) (m : RegisterMap) {n : Nat} (h : 1 ≤ n ∧ n ≤ 30) :
    m.apply l (.segmentCountUpdated n) = { m with table := m.table.setCount n h } := by
  rw [RegisterMap.apply, dif_pos h]

/-- Settles O59: a count in 1..30 is `LinTable.setCount`, which clears from the count on; every table carries its own
bounds, and reads as cleared past its count. -/
theorem segmentCountClearsTail : Obligations.SegmentCountClearsTail := by
  unfold Obligations.SegmentCountClearsTail
  refine ⟨fun l m n h1 h30 => ⟨_, RegisterMap.apply_segmentCount l m ⟨h1, h30⟩, rfl, rfl, fun k hk => ?below,
    fun k hk hl => ?above⟩, fun t => ⟨t.one_le_count, t.count_le, fun kind k hk hl => t.point?_past_count kind hk hl⟩⟩
  case below => exact ⟨clearFrom_below _ hk, clearFrom_below _ hk⟩
  case above => exact ⟨clearFrom_from _ hk hl, clearFrom_from _ hk hl⟩

theorem pointWrites_length (b : RangeBase) (k : Nat) (points : List LinPoint) :
    (pointWrites b k points).length = 2 * points.length := by
  induction points generalizing k with
  | nil => rfl
  | cons p rest ih => rw [pointWrites, List.length_cons, List.length_cons, ih, List.length_cons]; omega

/-- Point `j` of a request starting at point `k`: its real write stands at `2j`, its corrected write behind it. -/
theorem pointWrites_getElem? (b : RangeBase) {k j : Nat} {points : List LinPoint} {p : LinPoint}
    (h : points[j]? = some p) :
    (pointWrites b k points)[2 * j]? = some (regAddr b .linReal (k + j), p.real) ∧
    (pointWrites b k points)[2 * j + 1]? = some (regAddr b .linCorr (k + j), p.corr) := by
  induction points generalizing k j with
  | nil => simp at h
  | cons q rest ih =>
    rw [pointWrites]
    cases j with
    | zero =>
      obtain rfl : q = p := by simpa using h
      exact ⟨rfl, rfl⟩
    | succ j =>
      obtain ⟨hreal, hcorr⟩ := ih (k := k + 1) (j := j) (by simpa using h)
      rw [Nat.add_right_comm] at hreal hcorr
      exact ⟨hreal, hcorr⟩

theorem linearizationWrites_ok (b : RangeBase) {points : List LinPoint} (h1 : 1 ≤ points.length)
    (h30 : points.length ≤ 30) : linearizationWrites b points
      = .ok (pointWrites b 0 points ++ [(regAddr b .segCount 0, BitVec.ofNat 16 points.length)]) := if_pos ⟨h1, h30⟩

theorem linearizationWrites_error (b : RangeBase) {points : List LinPoint}
    (h : points.length = 0 ∨ 30 < points.length) : linearizationWrites b points = .error .invalidSegmentCount :=
  if_neg (by omega)

/-- The `n`th command of a write sequence is the `n`th write's. -/
theorem writeSequence_getElem? (id : Ident) {writes : List RegWrite} {n : Nat} {addr : Byte} {v : Word}
    (h : writes[n]? = some (addr, v)) : (writeSequence id writes)[n]? = some (.encode id 6 addr v) := by
  have hn : n < writes.length := (List.getElem?_eq_some_iff.1 h).1
  rw [writeSequence_eq_encodes, List.getElem?_append_left (by rwa [List.length_map]), List.getElem?_map, h]
  rfl

theorem writeSequence_commit (id : Ident) (writes : List RegWrite) :
    (writeSequence id writes)[writes.length]? = some (.encode id 255 0 0) := by
  rw [writeSequence_eq_encodes, List.getElem?_append_right (by rw [List.length_map])]
  simp

/-- Settles O55: the request is the write sequence of the points' writes (`pointWrites_getElem?`) and the count. -/
theorem linearizationWriteSequence : Obligations.LinearizationWriteSequence := by
  unfold Obligations.LinearizationWriteSequence
  intro x l b points hopen _
  rw [Session.submit_opened hopen, buildCommands]
  refine ⟨fun h1 h30 => ?_, fun hcount => by rw [linearizationWrites_error b hcount]⟩
  rw [linearizationWrites_ok b h1 h30]
  have hpoints := pointWrites_length b 0 points
  refine ⟨_, rfl, ?length, fun k p hp => ?point,
    ⟨_, addrOf_eq_some_regAddr b .segCount ⟨0, by decide⟩, ?count⟩, ?commit⟩
  case length => simp [writeSequence, hpoints]
  case point =>
    have hk : k < points.length := (List.getElem?_eq_some_iff.1 hp).1
    obtain ⟨hreal, hcorr⟩ := pointWrites_getElem? b (k := 0) hp
    rw [Nat.zero_add] at hreal hcorr
    refine ⟨⟨_, addrOf_eq_some_regAddr b .linReal ⟨k, by simp only [RangeName.length]; omega⟩, ?_⟩,
      ⟨_, addrOf_eq_some_regAddr b .linCorr ⟨k, by simp only [RangeName.length]; omega⟩, ?_⟩⟩
    · exact writeSequence_getElem? x.id (by rw [List.getElem?_append_left (by omega), hreal])
    · exact writeSequence_getElem? x.id (by rw [List.getElem?_append_left (by omega), hcorr])
  case count => exact writeSequence_getElem? x.id (by rw [← hpoints, List.getElem?_concat_length])
  case commit =>
    rw [← hpoints]
    exact (congrArg _ (by simp)).trans (writeSequence_commit x.id _)

end Sys2Proof.Machine

/-! ### Receiving a frame (R59, R105 to R111) -/

namespace Sys2Proof.Machine

theorem cutFrames_toBytes (f : Frame) : cutFrames f.toBytes = [f] := rfl

/-- The answer to an `RMUX`. -/
def rmuxAnswer (b : RangeBase) (addr : Byte) : Response := ⟨.selected (rmux b addr).1 (rmux b addr).2, .none⟩

theorem runProgram_rmux (addrs : List Byte) (s : State) :
    runProgram (addrs.map .rmux) s = .next { s with out := s.out ++ addrs.map (rmuxAnswer s.cfg.rangeBase) } := by
  induction addrs generalizing s with
  | nil => simp
  | cons addr rest ih => rw [List.map_cons, runProgram_cons, exec_rmux, andThen_next, ih]; simp [rmuxAnswer]

/-- At most one element is kept of a list of one. -/
theorem filterMap_one {α β : Type} (g : α → Option β) (a : α) : [a].filterMap g = (g a).toList := by
  cases h : g a <;> simp [h]

/-- Ten bytes pushed into an empty BUF come out as one frame. -/
theorem push_frame {s : State} (f : Frame) (hempty : s.buf = []) (hfits : s.fits 10 = true) :
    push f.toBytes s = .next { s with out := s.out ++ [⟨.nothing, .none⟩, ⟨.frames [f], .none⟩] } := by
  rw [push_fits (by rwa [Frame.toBytes_length]), exec_drain_aligned (by rw [hempty]; simp)]
  simp [hempty, cutFrames_toBytes]

/-- What `RECEIVE` answers to a frame: the `FEED`'s response, the frame, its verdict, and the range of the address if
the verdict gives one. -/
def receivedAnswers (b : RangeBase) (f : Frame) : List Response :=
  [⟨.nothing, .none⟩, ⟨.frames [f], .none⟩, frameVerdict f] ++ (frameVerdict f).address?.toList.map (rmuxAnswer b)

/-- `RECEIVE` of ten bytes into an empty BUF. -/
theorem receive_frame {s : State} (f : Frame) (hempty : s.buf = []) (hfits : s.fits 10 = true) :
    receive f.toBytes s = .next { s with out := s.out ++ receivedAnswers s.cfg.rangeBase f } := by
  rw [receive, push_frame f hempty hfits, andThen_next, newResponses_append]
  have hframes : ([⟨.nothing, .none⟩, ⟨.frames [f], .none⟩] : List Response).flatMap Response.frames = [f] := rfl
  rw [hframes, List.map_singleton, runProgram_cons, exec_decode_out, andThen_next, runProgram_nil, andThen_next,
    newResponses_append, filterMap_one, runProgram_rmux]
  simp [receivedAnswers]

/-- Settles O53: `receive_frame`, the verdict on a built frame being its fields. -/
theorem receiveDeliversOneFrame : Obligations.ReceiveDeliversOneFrame := by
  unfold Obligations.ReceiveDeliversOneFrame
  intro s id fc addr v hempty hfits
  rw [receive_frame _ hempty hfits, receivedAnswers, frameVerdict_buildFrame]
  rfl

/-! ### A received frame and the Register Map (R107 to R111, R119) -/

/-- The session after at most one update. -/
def Session.afterUpdate (x : Session) (l : HostLayout) : Option SemanticUpdate → Session
  | none => x
  | some u => { x with map := x.map.apply l u }

@[simp] theorem Session.afterUpdate_phase (x : Session) (l : HostLayout) (o : Option SemanticUpdate) :
    (x.afterUpdate l o).phase = x.phase := by cases o <;> rfl

@[simp] theorem Session.afterUpdate_id (x : Session) (l : HostLayout) (o : Option SemanticUpdate) :
    (x.afterUpdate l o).id = x.id := by cases o <;> rfl

theorem Session.route_option (x : Session) (l : HostLayout) (b : RangeBase) {rs : List Response}
    {o : Option SemanticUpdate} (hopen : x.phase = .opened) (h : rs.filterMap (Response.update? l b) = o.toList) :
    x.route l b rs = (x.afterUpdate l o, o.toList) := by
  cases o with
  | none => exact x.route_nothing l b rs h
  | some u => exact x.route_one l b rs u hopen h

/-- Of the answers to a received frame only the verdict can carry an update. -/
theorem updates_of_received (l : HostLayout) (b : RangeBase) (f : Frame) :
    (receivedAnswers b f).filterMap (Response.update? l b) = ((frameVerdict f).update? l b).toList := by
  have hpush : [(⟨.nothing, .none⟩ : Response), ⟨.frames [f], .none⟩].filterMap (Response.update? l b) = [] := rfl
  have hrmux : ((frameVerdict f).address?.toList.map (rmuxAnswer b)).filterMap (Response.update? l b) = [] := by
    rw [List.filterMap_eq_nil_iff, List.forall_mem_map]
    exact fun _ _ => rfl
  have hsplit : receivedAnswers b f = [⟨.nothing, .none⟩, ⟨.frames [f], .none⟩]
      ++ ([frameVerdict f] ++ (frameVerdict f).address?.toList.map (rmuxAnswer b)) := rfl
  rw [hsplit, List.filterMap_append, hpush, List.filterMap_append, hrmux, filterMap_one, List.append_nil,
    List.nil_append]

/-- A received frame in an open session: its verdict's update, if any, is published and applied. -/
theorem onBytesAvailable_frame (x : Session) (l : HostLayout) {s : State} (f : Frame) (hopen : x.phase = .opened)
    (hempty : s.buf = []) (hfits : s.fits 10 = true) : ∃ t : State, t.buf = [] ∧
      x.onBytesAvailable l true f.toBytes s
        = .next ⟨t, x.afterUpdate l ((frameVerdict f).update? l s.cfg.rangeBase),
            ((frameVerdict f).update? l s.cfg.rangeBase).toList⟩ := by
  have htake : takeBytes true f.toBytes s = _ := receive_frame f hempty hfits
  refine ⟨{ s with out := s.out ++ receivedAnswers s.cfg.rangeBase f }, hempty, ?_⟩
  rw [x.onBytesAvailable_next l true f.toBytes htake, newResponses_append,
    x.route_option l _ hopen (updates_of_received l s.cfg.rangeBase f)]

/-- Outside the ranges no update is made (R95, R111). -/
theorem interpretDecoded_none {l : HostLayout} {b : RangeBase} {addr : Byte} {raw : Word}
    (h : (rmux b addr).1 = none) : interpretDecoded l b addr raw = none := by
  rw [interpretDecoded]
  split
  · rfl
  next r k hrk => simp [hrk] at h

theorem interpretDecoded_some {l : HostLayout} {b : RangeBase} {addr : Byte} {raw : Word} {r : RangeName} {k : Nat}
    (h : rmux b addr = (some r, k)) : interpretDecoded l b addr raw = interpretField l r k raw := by
  rw [interpretDecoded, h]

/-- A frame that passes the CRC check and asks or tells a value is dispatched by its address. -/
theorem update?_of_accepted {l : HostLayout} {b : RangeBase} {f : Frame} (hcrc : crc16 f.toBytes 0xFFFF = 0)
    (hfunction : f.function = 3 ∨ f.function = 6) :
    (frameVerdict f).update? l b = interpretDecoded l b f.address f.value := by
  have hok := (crc16_toBytes_eq_zero f).1 hcrc
  rcases hfunction with h | h
  · rw [frameVerdict_of_known (fc := .inquire) hok h]; rfl
  · rw [frameVerdict_of_known (fc := .modify) hok h]; rfl

/-- The frames without an effect on the host: a wrong CRC, a commit or unknown function, an address in no range. -/
theorem update?_of_rejected {l : HostLayout} {b : RangeBase} {f : Frame}
    (h : crc16 f.toBytes 0xFFFF ≠ 0 ∨ (f.function ≠ 3 ∧ f.function ≠ 6) ∨ (rmux b f.address).1 = none) :
    (frameVerdict f).update? l b = none := by
  rcases frameVerdict_cases f with ⟨_, hv⟩ | ⟨_, _, hv⟩ | ⟨fc, hcrc, hfc, hv⟩
  · rw [hv]; rfl
  · rw [hv]; rfl
  · have hzero : crc16 f.toBytes 0xFFFF = 0 := (crc16_toBytes_eq_zero f).2 ((crcOk_iff f).1 hcrc)
    have hbyte := FunctionCode.ofByte?_eq_some.1 hfc
    have hremaining := h.resolve_left (not_not_intro hzero)
    rw [hv]
    cases fc with
    | inquire => exact interpretDecoded_none (hremaining.resolve_left fun hne => hne.1 hbyte)
    | modify => exact interpretDecoded_none (hremaining.resolve_left fun hne => hne.2 hbyte)
    | commitFlash => rfl

/-- Every register of a threshold group is read by `interpretToggle`. -/
theorem interpretField_group (l : HostLayout) (g : ToggleName) (k : Nat) (raw : Word) :
    interpretField l g.range k raw = some (interpretToggle l g k raw) := by cases g <;> rfl

theorem interpretToggle_flag (l : HostLayout) (g : ToggleName) {k : Nat} (raw : Word) (hk : k = (l.toggle g).flag) :
    interpretToggle l g k raw = .toggleUpdated g ((l.toggle g).onValues.contains raw) := if_pos hk

theorem interpretToggle_other (l : HostLayout) (g : ToggleName) {k : Nat} (raw : Word) (hk : k ≠ (l.toggle g).flag) :
    interpretToggle l g k raw = .field g.range k ((l.kind g.range k).read raw) := if_neg hk

theorem interpretField_calibration (l : HostLayout) {r : RangeName} (k : Nat) (raw : Word)
    (h : r = .adCal ∨ r = .vdacCal ∨ r = .curCal) :
    interpretField l r k raw = some (.calibrationBoundUpdated r k ((l.kind r k).read raw)) := by
  rcases h with rfl | rfl | rfl <;> rfl

theorem interpretField_plain (l : HostLayout) {r : RangeName} (k : Nat) (raw : Word)
    (h : r = .tempRange ∨ r = .emissivity ∨ r = .respTime) :
    interpretField l r k raw = some (.field r k ((l.kind r k).read raw)) := by
  rcases h with rfl | rfl | rfl <;> rfl

theorem RegisterMap.apply_field (l : HostLayout) (m : RegisterMap) (r : RangeName) (k : Nat) (v : FieldValue) :
    m.apply l (.field r k v) = m.setField r k v := rfl

theorem RegisterMap.apply_toggle (l : HostLayout) (m : RegisterMap) (g : ToggleName) (on : Bool) :
    m.apply l (.toggleUpdated g on) = m.setField g.range (l.toggle g).flag (.onOff on) := rfl

/-- The update sets one field, the one at this range and index. -/
def SetsField (l : HostLayout) (r : RangeName) (k : Nat) (u : SemanticUpdate) : Prop :=
  ∃ v, ∀ m : RegisterMap, m.apply l u = m.setField r k v

theorem interpretToggle_setsField (l : HostLayout) (g : ToggleName) (k : Nat) (raw : Word) :
    SetsField l g.range k (interpretToggle l g k raw) := by
  by_cases hk : k = (l.toggle g).flag
  · rw [interpretToggle_flag l g raw hk, hk]
    exact ⟨_, fun m => m.apply_toggle l g _⟩
  · rw [interpretToggle_other l g raw hk]
    exact ⟨_, fun m => m.apply_field l _ _ _⟩

/-- A register outside the linearization table sets its own field, PASSWORD none. -/
theorem interpretField_setsField (l : HostLayout) {r : RangeName} (k : Nat) (raw : Word)
    (hreal : r ≠ .linReal) (hcorr : r ≠ .linCorr) (hcount : r ≠ .segCount) :
    ∀ u ∈ interpretField l r k raw, SetsField l r k u := by
  rintro u hu
  cases r with
  | linReal => exact absurd rfl hreal
  | linCorr => exact absurd rfl hcorr
  | segCount => exact absurd rfl hcount
  | password => cases hu
  | peakHold => cases hu; exact interpretToggle_setsField l .peakHold k raw
  | lowAlarm => cases hu; exact interpretToggle_setsField l .lowAlarm k raw
  | highAlarm => cases hu; exact interpretToggle_setsField l .highAlarm k raw
  | _ => cases hu; exact ⟨_, fun _ => rfl⟩

/-- Such an update leaves the table and every other field. -/
theorem Session.afterUpdate_keeps (x : Session) (l : HostLayout) {r : RangeName} {k : Nat} {o : Option SemanticUpdate}
    (h : ∀ u ∈ o, SetsField l r k u) : (x.afterUpdate l o).map.table = x.map.table ∧
      ∀ q j, ¬ (q = r ∧ j = k) → (x.afterUpdate l o).map.field? q j = x.map.field? q j := by
  cases o with
  | none => exact ⟨rfl, fun _ _ _ => rfl⟩
  | some u =>
    obtain ⟨v, hv⟩ := h u rfl
    rw [Session.afterUpdate, hv]
    exact ⟨rfl, fun q j hne => x.map.field?_setField_other v fun ⟨hr, hk⟩ => hne ⟨hr.symm, hk.symm⟩⟩

/-- A group's flag that reads as off makes its thresholds stale; one that reads as on leaves them as stored (R110). -/
theorem threshold?_after_toggle (l : HostLayout) (m : RegisterMap) (g : ToggleName) (on : Bool) :
    (on = false → ∀ j, (m.apply l (.toggleUpdated g on)).threshold? l g j = none) ∧
    (on = true → ∀ j ∈ (l.toggle g).thresholds.toList, j ≠ (l.toggle g).flag →
      (m.apply l (.toggleUpdated g on)).threshold? l g j = m.field? g.range j) := by
  refine ⟨?off, ?on⟩
  case off =>
    rintro rfl j
    exact RegisterMap.threshold?_of_off l _ g j (RegisterMap.isOn_apply_toggle l m g false)
  case on =>
    rintro rfl j hj hne
    rw [RegisterMap.threshold?_of_on l _ g (RegisterMap.isOn_apply_toggle l m g true) hj, RegisterMap.apply_toggle]
    exact m.field?_setField_other _ fun h => hne (Fin.ext h.2.symm)

/-- Settles O54: of the answers to a drained frame only `DECODE`'s verdict can carry an update
(`onBytesAvailable_frame`); it carries none for the rejected frames (`update?_of_rejected`) and that
of `interpretField` for the others (`update?_of_accepted`), whose effect on the map is read off range by range. -/
theorem inboundFrameReachesRegisterMap : Obligations.InboundFrameReachesRegisterMap := by
  unfold Obligations.InboundFrameReachesRegisterMap
  refine ⟨Scale.read_eq, fun c ons v => ⟨rfl, rfl⟩, fun x l s f hopen hempty hfits => ?_⟩
  obtain ⟨t, hbuf, hrun⟩ := onBytesAvailable_frame x l f hopen hempty hfits
  refine ⟨t, _, _, hrun, hbuf, by rw [Session.afterUpdate_phase, hopen], Session.afterUpdate_id _ _ _,
    fun hrejected => ?_, fun hcrc hfunction r k hrmux => ?_⟩
  · rw [update?_of_rejected hrejected]
    exact ⟨rfl, rfl⟩
  rw [update?_of_accepted hcrc hfunction, interpretDecoded_some hrmux]
  generalize f.value = v
  refine ⟨?real, ?corr, ?count, ?flag, ?threshold, fun h => ?calibration, fun h => ?plain, ?date, ?password,
    fun hreal hcorr hcount => x.afterUpdate_keeps l (interpretField_setsField l k v hreal hcorr hcount)⟩
  case real =>
    rintro rfl
    exact ⟨rfl, fun hk => LinTable.setPoint_real _ hk _, fun j hj => LinTable.setPoint_real_other _ hj _, rfl, rfl, rfl⟩
  case corr =>
    rintro rfl
    exact ⟨rfl, fun hk => LinTable.setPoint_line _ hk _, fun j hj => LinTable.setPoint_line_other _ hj _, rfl, rfl, rfl⟩
  case count =>
    rintro rfl
    refine ⟨rfl, fun h1 h30 => ?_, fun hout => ?_, rfl⟩
    · exact congrArg (fun m => m.table.count) (x.map.apply_segmentCount l ⟨h1, h30⟩)
    · exact dif_neg (by omega)
  case flag =>
    rintro g rfl hk
    rw [interpretField_group, interpretToggle_flag l g v hk, hk]
    exact ⟨rfl, RegisterMap.field?_setField_same _ _ _ _, threshold?_after_toggle l x.map g _⟩
  case threshold =>
    rintro g rfl hk
    rw [interpretField_group, interpretToggle_other l g v hk]
    exact ⟨rfl, RegisterMap.field?_setField_same _ _ _ _⟩
  case calibration =>
    rw [interpretField_calibration l k v h]
    exact ⟨rfl, RegisterMap.field?_setField_same _ _ _ _⟩
  case plain =>
    rw [interpretField_plain l k v h]
    exact ⟨rfl, RegisterMap.field?_setField_same _ _ _ _⟩
  case date =>
    rintro rfl
    exact ⟨rfl, RegisterMap.field?_setField_same _ _ _ _⟩
  case password =>
    rintro rfl
    exact ⟨rfl, rfl⟩

end Sys2Proof.Machine
